-- ==== Sys2Proof/Word.lean ====
section
/-! DEFINITION. The widths the spec names (00_scope.md R10, 10_state.md R21, R29, 41_whitener.md R145). -/

namespace Sys2Proof

/-- One byte, 0 to 255, bit 0 the least significant (00_scope.md R10). -/
abbrev Byte := BitVec 8

/-- A 4-bit data nibble `d3 d2 d1 d0` (30_encoding.md R83, R90). -/
abbrev Nibble := BitVec 4

/-- A value of the Sequence Counter (10_state.md R29) or of a repetition count (30_encoding.md R89). -/
abbrev Word16 := BitVec 16

/-- A value of the whitening shift register W (41_whitener.md R145). -/
abbrev Lfsr := BitVec 9

/-- The packed configuration word CFGW (30_encoding.md R93). -/
abbrev Cfgw := BitVec 74

end Sys2Proof
end

