-- ==== Sys2Proof/Config.lean ====
section
/-! DEFINITION. The implementation parameters of 00_scope.md R8 at the values this hardware takes. -/

namespace Sys2Proof

/-- The two widths the source's "byte/short" names for the header length field (00_scope.md R8 LEN_WIDTH,
30_encoding.md R80, R81). -/
inductive LenWidth where
  | w8
  | w16
  deriving DecidableEq, Repr

namespace Config

/-- LEN_WIDTH: the length field of this hardware has 8 bits (decision D1). -/
def lenWidth : LenWidth := .w8

/-- MAX_PAYLOAD = 2^LEN_WIDTH - 1, as a function of the width (00_scope.md R8). -/
def maxPayloadOf : LenWidth → Nat
  | .w8 => 255
  | .w16 => 65535

/-- HDR_LEN = 1 + 2 + LEN_WIDTH/8, as a function of the width (00_scope.md R8). -/
def hdrLenOf : LenWidth → Nat
  | .w8 => 4
  | .w16 => 5

/-- MAX_PAYLOAD of this hardware: 255. -/
def maxPayload : Nat := maxPayloadOf lenWidth

/-- HDR_LEN of this hardware: 4. -/
def hdrLen : Nat := hdrLenOf lenWidth

/-- CNT_WIDTH: the width of `preamble_bytes` and `sync_words` (decision D7). -/
def cntWidth : Nat := 16

/-- PREAMBLE_BYTE, the training-pattern byte (43_preamble_sync.md R182, decision D4). -/
def preambleByte : Byte := 0xAA

/-- The seed of the whitening register: all ones (41_whitener.md R145, decision D5). -/
def lfsrSeed : Lfsr := 0x1FF

/-- Shifts of the whitening register per frame byte (41_whitener.md R146). -/
def shiftsPerByte : Nat := 8

end Config

end Sys2Proof
end

