-- ==== Sys2Proof/Syntax.lean ====
section
/-! DEFINITION. The operations (30_encoding.md R96, R110; one constructor per row of opcode_table.json), their
operands, and the words and requests that carry them. -/

namespace Sys2Proof

/-- The operand of CONSTRUCT at the model level: nine INTEGERS, so that an out-of-range configuration can be
expressed (30_encoding.md R93; names and order of 10_state.md R21). -/
structure CfgFields where
  preambleBytes : Int
  syncByte0 : Int
  syncByte1 : Int
  syncWords : Int
  flags : Int
  fec : Int
  whitening : Int
  seqByte0 : Int
  seqByte1 : Int
  deriving DecidableEq, Repr

/-- The fifteen operations. The host commands CONSTRUCT and ENCODE carry their operand; the transform modes and
stage operations work on the transient spaces of the state. The elements of a chunk are INTEGERS at the model
level, so that "non-byte input" can be expressed (30_encoding.md R94, 60_exceptions.md R263). -/
inductive Instr where
  | reset
  | nop
  | construct (c : CfgFields)
  | encode (chunk : List Int)
  | rsvd3
  | xfIdentity
  | xfWhitened
  | xfFec
  | xfBoth
  | assemble
  | whiten
  | fecEncode
  | prepend
  | seqRead
  | seqInc
  deriving DecidableEq, Repr

namespace Instr

/-- The operations a HOST can ask for (44_pipeline_ops.md R195); the others are internal steps of ENCODE. -/
def isHostOp : Instr → Bool
  | .reset => true
  | .nop => true
  | .construct _ => true
  | .encode _ => true
  | .rsvd3 => true
  | .xfIdentity => false
  | .xfWhitened => false
  | .xfFec => false
  | .xfBoth => false
  | .assemble => false
  | .whiten => false
  | .fecEncode => false
  | .prepend => false
  | .seqRead => false
  | .seqInc => false

end Instr

/-- A code word in one of the three formats of 30_encoding.md R110: CMD = {rst, op} (R92), MODE =
{fec, whitening} (R98), STAGE = {component, sub} (R99). -/
inductive CodeWord where
  | cmd (w : BitVec 3)
  | mode (w : BitVec 2)
  | stage (w : BitVec 4)
  deriving DecidableEq, Repr

/-- The configuration operand of a request: the packed word a port carries, or the nine integers of the model
level (30_encoding.md R93). -/
inductive CfgOperand where
  | packed (w : Cfgw)
  | fields (c : CfgFields)
  deriving DecidableEq, Repr

/-- What a HOST can present: a command word, the only format a port carries (30_encoding.md R99, 44_pipeline_ops.md
R195), the configuration operand (read only with CONSTRUCT, R215) and the chunk placed in IN (read only with ENCODE,
R203). -/
structure HostRequest where
  cmd : BitVec 3
  cfg : CfgOperand
  chunk : List Int
  deriving DecidableEq, Repr

/-- One operation of any kind in encoded form: its code word and operands. -/
structure Request where
  word : CodeWord
  cfg : CfgOperand
  chunk : List Int
  deriving DecidableEq, Repr

end Sys2Proof
end

