-- ==== Sys2Proof/WellFormed.lean ====
section
/-! DEFINITION. Which operations can be expressed on the ports: every configuration field inside the width of its
place in CFGW (30_encoding.md R93), every chunk element 8 bits (R94). An operation outside these checks still has
a meaning at the model level (InvalidConfiguration, InvalidEncoderInput). -/

namespace Sys2Proof

/-- `v` fits an unsigned field of `w` bits. -/
abbrev FitsBits (w : Nat) (v : Int) : Prop := 0 ≤ v ∧ v < 2 ^ w

/-- The element is a byte (30_encoding.md R94). -/
abbrev IsByte (v : Int) : Prop := FitsBits 8 v

/-- Every field of the configuration fits its place in CFGW (30_encoding.md R93). -/
abbrev CfgFields.Fits (c : CfgFields) : Prop :=
  FitsBits 16 c.preambleBytes ∧ FitsBits 8 c.syncByte0 ∧ FitsBits 8 c.syncByte1 ∧ FitsBits 16 c.syncWords ∧
  FitsBits 8 c.flags ∧ FitsBits 1 c.fec ∧ FitsBits 1 c.whitening ∧ FitsBits 8 c.seqByte0 ∧
  FitsBits 8 c.seqByte1

/-- The operation can be presented on the ports. -/
def Instr.wellFormed : Instr → Bool
  | .reset => true
  | .nop => true
  | .construct c => decide c.Fits
  | .encode chunk => decide (∀ x ∈ chunk, IsByte x)
  | .rsvd3 => true
  | .xfIdentity => true
  | .xfWhitened => true
  | .xfFec => true
  | .xfBoth => true
  | .assemble => true
  | .whiten => true
  | .fecEncode => true
  | .prepend => true
  | .seqRead => true
  | .seqInc => true

end Sys2Proof
end

