-- ==== Sys2Proof/Decode.lean ====
section
/-! DEFINITION. From code words and operand bits to operations and back (30_encoding.md R92 to R99, R101, R102).
`decode` is total: every CMD and MODE word names an operation; the STAGE words that name none are rejected. -/

namespace Sys2Proof

/-- Why a request is no operation. -/
inductive DecodeError where
  /-- A STAGE word that names no stage operation (30_encoding.md R102). -/
  | unusedStage (w : BitVec 4)
  deriving DecidableEq, Repr

/-- The field of CFGW of `len` bits whose lowest bit is bit `lo`, as an unsigned number. -/
def cfgwField (w : Cfgw) (lo len : Nat) : Int := ((w.extractLsb' lo len).toNat : Int)

/-- The nine fields of CFGW at their bit positions (30_encoding.md R93). -/
def unpackCfg (w : Cfgw) : CfgFields where
  preambleBytes := cfgwField w 0 16
  syncByte0 := cfgwField w 16 8
  syncByte1 := cfgwField w 24 8
  syncWords := cfgwField w 32 16
  flags := cfgwField w 48 8
  fec := cfgwField w 56 1
  whitening := cfgwField w 57 1
  seqByte0 := cfgwField w 58 8
  seqByte1 := cfgwField w 66 8

/-- CMD words (30_encoding.md R97): rst = 1 is RESET whatever op is. -/
def decodeCmd (w : BitVec 3) (c : CfgFields) (chunk : List Int) : Instr :=
  if w &&& 0b100 = 0b100 then .reset
  else if w = 0b000 then .nop
  else if w = 0b001 then .construct c
  else if w = 0b010 then .encode chunk
  else .rsvd3

/-- MODE words (30_encoding.md R98). -/
def decodeMode (w : BitVec 2) : Instr :=
  if w = 0b00 then .xfIdentity
  else if w = 0b01 then .xfWhitened
  else if w = 0b10 then .xfFec
  else .xfBoth

/-- STAGE words (30_encoding.md R99); the unused identifiers are rejected (R102). -/
def decodeStage (w : BitVec 4) : Except DecodeError Instr :=
  if w = 0b0010 then .ok .assemble
  else if w = 0b0100 then .ok .whiten
  else if w = 0b0110 then .ok .fecEncode
  else if w = 0b1000 then .ok .prepend
  else if w = 0b1010 then .ok .seqRead
  else if w = 0b1011 then .ok .seqInc
  else .error (.unusedStage w)

/-- The configuration operand as nine integers (30_encoding.md R93). -/
def operandFields : CfgOperand → CfgFields
  | .packed w => unpackCfg w
  | .fields c => c

/-- The operation a request asks for. Operands an operation does not take are ignored (30_encoding.md R96). -/
def decode (r : Request) : Except DecodeError Instr :=
  match r.word with
  | .cmd w => .ok (decodeCmd w (operandFields r.cfg) r.chunk)
  | .mode w => .ok (decodeMode w)
  | .stage w => decodeStage w

/-- The command of a HOST as a request of the decoder. -/
def hostCommand (h : HostRequest) : Request := ⟨.cmd h.cmd, h.cfg, h.chunk⟩

/-- The request as one a HOST can present: a command word only (30_encoding.md R98, R99). -/
def hostRequestOf (r : Request) : Option HostRequest :=
  match r.word with
  | .cmd w => some ⟨w, r.cfg, r.chunk⟩
  | .mode _ => none
  | .stage _ => none

/-- The CFGW that holds the nine fields, register 0 at the low end (30_encoding.md R93). -/
def packCfg (c : CfgFields) : Cfgw :=
  BitVec.ofInt 8 c.seqByte1 ++ BitVec.ofInt 8 c.seqByte0 ++ BitVec.ofInt 1 c.whitening ++ BitVec.ofInt 1 c.fec ++
  BitVec.ofInt 8 c.flags ++ BitVec.ofInt 16 c.syncWords ++ BitVec.ofInt 8 c.syncByte1 ++
  BitVec.ofInt 8 c.syncByte0 ++ BitVec.ofInt 16 c.preambleBytes

/-- The configuration operand that carries `c`: CFGW where every field fits its place, else the nine integers
("CFGW can only hold configurations that are already in range", 30_encoding.md R93). -/
def encodeCfg (c : CfgFields) : CfgOperand :=
  if c.Fits then .packed (packCfg c) else .fields c

/-- The code word of an operation (30_encoding.md R97 to R99); RESET is encoded with op = 00. -/
def encodeWord : Instr → CodeWord
  | .reset => .cmd 0b100
  | .nop => .cmd 0b000
  | .construct _ => .cmd 0b001
  | .encode _ => .cmd 0b010
  | .rsvd3 => .cmd 0b011
  | .xfIdentity => .mode 0b00
  | .xfWhitened => .mode 0b01
  | .xfFec => .mode 0b10
  | .xfBoth => .mode 0b11
  | .assemble => .stage 0b0010
  | .whiten => .stage 0b0100
  | .fecEncode => .stage 0b0110
  | .prepend => .stage 0b1000
  | .seqRead => .stage 0b1010
  | .seqInc => .stage 0b1011

/-- The request that carries an operation: its code word and its operand (30_encoding.md R109); the operand of
an operation that takes none is zero and the empty chunk. -/
def encode (i : Instr) : Request :=
  match i with
  | .construct c => ⟨encodeWord i, encodeCfg c, []⟩
  | .encode chunk => ⟨encodeWord i, .packed 0, chunk⟩
  | i => ⟨encodeWord i, .packed 0, []⟩

/-- The code word that `nbits` bits of value `w` are, the opcode table's bit numbering being the spec's own
(00_scope.md R10). The table's widths 2, 3 and 4 are the formats MODE, CMD and STAGE. A width rounded up to
whole bytes does not say the format: the word is then read as CMD, the only format a port carries
(30_encoding.md R99, INDEX), and as STAGE where it has four bits. DESIGN CHOICE (log entry 15). -/
def tableWord (nbits w : Nat) : Option CodeWord :=
  if nbits = 2 then (if w < 4 then some (.mode (BitVec.ofNat 2 w)) else none)
  else if nbits = 3 then (if w < 8 then some (.cmd (BitVec.ofNat 3 w)) else none)
  else if nbits = 4 then (if w < 16 then some (.stage (BitVec.ofNat 4 w)) else none)
  else if w < 8 then some (.cmd (BitVec.ofNat 3 w))
  else if w < 16 then some (.stage (BitVec.ofNat 4 w))
  else none

/-- The request whose code word is the table word and whose operand words are all zero. -/
def tableRequest (nbits w : Nat) : Option Request :=
  match tableWord nbits w with
  | some cw => some ⟨cw, .packed 0, []⟩
  | none => none

/-- The instruction the decoder reads from a table word. -/
def decodeTableWord (nbits w : Nat) : Option Instr :=
  match tableRequest nbits w with
  | some r =>
    match decode r with
    | .ok i => some i
    | .error _ => none
  | none => none

end Sys2Proof
end

