-- ==== Sys2Proof/Machine/State.lean ====
section
/-! DEFINITION. The state of one instance (10_state.md R20, R38), its results, and the reasons a step can stop. -/

namespace Sys2Proof.Machine

/-- LIFE, the lifecycle bit: 0 = UNCONFIGURED, 1 = CONFIGURED (10_state.md R33). -/
inductive Life where
  | unconfigured
  | configured
  deriving DecidableEq, Repr

/-- The status codes that exist (30_encoding.md R100); codes 5 to 7 are never produced (R103). -/
inductive Status where
  | ok
  | invalidConfiguration
  | oversizedPayload
  | invalidEncoderInput
  | protocolError
  deriving DecidableEq, Repr

/-- RESULT: the status code of an operation and, only for an ENCODE that ended OK, its transmit unit
(30_encoding.md R95). -/
structure Result where
  status : Status
  unit : Option (List Byte)
  deriving DecidableEq, Repr

/-- The nine configuration registers CFG[0..8], in the order of their numbers (10_state.md R21). -/
structure Cfg where
  preambleBytes : Word16
  syncByte0 : Byte
  syncByte1 : Byte
  syncWords : Word16
  flags : Byte
  fec : Bool
  whitening : Bool
  seqByte0 : Byte
  seqByte1 : Byte
  deriving DecidableEq, Repr

/-- How far the operation in progress on the ports is (44_pipeline_ops.md R217 to R221). -/
inductive Port where
  /-- No operation in progress: a command beat is accepted (R217). -/
  | idle
  /-- The input phase of ENCODE; `full`: more than MAX_PAYLOAD bytes have come and the rest is discarded
  (R218, R219). The bytes taken so far stand in IN. -/
  | input (full : Bool)
  /-- The output phase of ENCODE: byte `i` of OUT is presented (R220). -/
  | output (i : Nat)
  /-- The one clock in which the status of the operation that has ended is shown (R221). -/
  | status (c : Status)
  deriving DecidableEq, Repr

/-- The input pins at one clock edge (44_pipeline_ops.md R215). -/
structure Pins where
  rst : Bool
  cmdValid : Bool
  cmdOp : BitVec 2
  cmdCfg : Cfgw
  inValid : Bool
  inData : Byte
  inKeep : Bool
  inLast : Bool
  outReady : Bool
  deriving DecidableEq, Repr

/-- The state of one instance. `life`, `cfg`, `seq` are the persistent state, `w`, `inp`, `frame`, `enc`, `out`
the transient state (10_state.md R20, R34, R35; 20_memory.md R50). CFG and SEQ hold "no value" while
UNCONFIGURED, which is the spec's own state of these registers (10_state.md R25, R38). `result` is what the
HOST gets back (30_encoding.md R95), `port` the progress on the ports. `seqVal`, `requests`, `placed` and `edges`
are the model's own fields (log entries 8, 1, 9, 13). -/
structure State where
  /-- LIFE (10_state.md R33). -/
  life : Life
  /-- CFG[0..8], or no value (10_state.md R21, R25). -/
  cfg : Option Cfg
  /-- SEQ, or no value (10_state.md R29, R38). -/
  seq : Option Word16
  /-- W, which exists only inside one WHITEN (10_state.md R34). -/
  w : Option Lfsr
  /-- IN, the input chunk (20_memory.md R50). -/
  inp : List Int
  /-- FRAME, header and payload (20_memory.md R64). -/
  frame : List Int
  /-- ENC, the encoded frame (20_memory.md R65). -/
  enc : List Byte
  /-- OUT, the transmit unit (20_memory.md R63). -/
  out : List Byte
  /-- The value SEQ_READ returned, the local `s` of ASSEMBLE (40_frame_assembler.md R123). -/
  seqVal : Option Word16
  /-- The result of the operation that ended last; no operation reads it (10_state.md R28). -/
  result : Option Result
  /-- Progress of the operation in progress on the ports (44_pipeline_ops.md R217). -/
  port : Port
  /-- Operations the HOST has issued and the block has not accepted yet, in issue order (20_memory.md R68). -/
  requests : List HostRequest
  /-- An operation to be executed next by itself, of any kind. No HOST and no operation sets it: only
  `State.withFetchWord` does (log entry 9). -/
  placed : Option Request
  /-- Input pins at the coming clock edges, in order (44_pipeline_ops.md R215). -/
  edges : List Pins
  deriving DecidableEq, Repr

/-- The machine right after power-on, which is a RESET (10_state.md R38, 70_reset_and_hazards.md R291), with
nothing presented by the HOST. -/
def State.reset : State where
  life := .unconfigured
  cfg := none
  seq := none
  w := none
  inp := []
  frame := []
  enc := []
  out := []
  seqVal := none
  result := none
  port := .idle
  requests := []
  placed := none
  edges := []

/-- What the spec calls impossible, or leaves without a defined result and treats as a model fault
(60_exceptions.md R277, 93_implementation_defined.md U16, U17, U27). All are SAFE: the model stops. -/
inductive Fault where
  /-- CFG or SEQ read while it holds no value (10_state.md R25, R38, R277, U17: "fault on read"). Raised by ASSEMBLE, SEQ_READ, SEQ_INC,
  PREPEND and ENCODE; for ENCODE only in states no run reaches. Safe. -/
  | noValue
  /-- A read or write outside a byte space (20_memory.md R52, R277). Raised by the output phase on the ports in
  states no run reaches. Safe. -/
  | outsideSpace
  /-- A non-byte element where fec = 0 (60_exceptions.md R263, U27). Raised by XF_IDENTITY, XF_WHITENED and ENCODE.
  Safe. -/
  | nonByte
  /-- A STAGE word that names no operation (30_encoding.md R102, U16). Raised by the step. Safe. -/
  | unusedStage (w : BitVec 4)
  deriving DecidableEq, Repr

/-- Why an instruction has no meaning in the model. -/
inductive Refusal where
  /-- Raised by a dispatch arm whose instruction is not modelled; no arm of this model is. Safe. -/
  | notModelled (mnemonic : String)
  deriving DecidableEq, Repr

/-- How a stage operation ends inside its operation: it goes on, it raises a status (60_exceptions.md R266), or
the model faults. -/
inductive StageOut where
  | done (s : State)
  | raised (e : Status) (s : State)
  | stopped (f : Fault)
  deriving DecidableEq, Repr

end Sys2Proof.Machine
end

