-- ==== Sys2Proof/Machine/Ops.lean ====
section
/-! DEFINITION. The named operations over the byte spaces and the registers, the sequencing of stage operations,
`raise`, and the end of an operation (00_scope.md R12, 20_memory.md R52, 60_exceptions.md R266). -/

namespace Sys2Proof.Machine

/-- MemRead(S+i, n): the `n` elements of the space from index `i`, defined only inside it (20_memory.md R52). -/
def memRead {α : Type} (sp : List α) (i n : Nat) : Option (List α) :=
  if i + n ≤ sp.length then some ((sp.drop i).take n) else none

/-- MemWrite(S+i, n, v): `v` in place of the elements from index `i`, the space growing when it was shorter
(20_memory.md R52). A write that would leave a gap is outside the space. -/
def memWrite {α : Type} (sp : List α) (i : Nat) (v : List α) : Option (List α) :=
  if i ≤ sp.length then some (sp.take i ++ v ++ sp.drop (i + v.length)) else none

/-- A byte as an element of a sequence of integers (30_encoding.md R94). -/
def elemOf (b : Byte) : Int := (b.toNat : Int)

/-- The byte an element is, if it is an integer in 0 to 255 (42_fec_encoder.md R164, R169). -/
def byteOf (x : Int) : Option Byte := if IsByte x then some (BitVec.ofInt 8 x) else none

/-- The bytes a sequence of elements is, if every element is a byte. -/
def bytesOf : List Int → Option (List Byte)
  | [] => some []
  | x :: xs =>
    match byteOf x, bytesOf xs with
    | some b, some bs => some (b :: bs)
    | _, _ => none

/-- `raise E`: the operation stops here with status `e`; every write made so far stands (00_scope.md R12,
60_exceptions.md R266). Nothing is saved and there is no handler, so this is all of "taking an exception"; and
there is no return from an error (R269). -/
def raise (e : Status) (s : State) : StageOut := .raised e s

/-- The next stage operation of the same operation: it runs only if the one before it went on. -/
def StageOut.andThen (r : StageOut) (k : State → StageOut) : StageOut :=
  match r with
  | .done s => k s
  | .raised e s => .raised e s
  | .stopped f => .stopped f

/-- Reading CFG, which is a fault of the model while it holds no value (10_state.md R25, 60_exceptions.md R277). -/
def withCfg (s : State) (k : Cfg → StageOut) : StageOut :=
  match s.cfg with
  | some c => k c
  | none => .stopped .noValue

/-- Reading SEQ, which is a fault of the model while it holds no value (10_state.md R38, 60_exceptions.md R277). -/
def withSeq (s : State) (k : Word16 → StageOut) : StageOut :=
  match s.seq with
  | some v => k v
  | none => .stopped .noValue

/-- The result of an access to a byte space, which is a fault of the model outside it (20_memory.md R52). -/
def withSpace {α : Type} (a : Option (List α)) (k : List α → StageOut) : StageOut :=
  match a with
  | some v => k v
  | none => .stopped .outsideSpace

/-- The operation returns `(st, unit)` to the HOST (30_encoding.md R95). The result is not latched: it replaces
the one before it and no operation reads it (10_state.md R28). -/
def State.reply (s : State) (st : Status) (unit : Option (List Byte)) : State :=
  { s with result := some ⟨st, unit⟩ }

/-- The transient spaces, W and the local of ASSEMBLE exist only inside one ENCODE (10_state.md R34, R35). -/
def State.clearTransients (s : State) : State :=
  { s with inp := [], frame := [], enc := [], out := [], w := none, seqVal := none }

/-- An ENCODE ends: its transient state is gone, with or without error (10_state.md R35), and its result is
returned. -/
def State.endEncode (s : State) (st : Status) (unit : Option (List Byte)) : State :=
  s.clearTransients.reply st unit

/-- The HOST places a chunk in IN before an ENCODE starts; the other transient spaces start empty
(20_memory.md R53, 10_state.md R35). -/
def State.loadChunk (s : State) (chunk : List Int) : State :=
  { s.clearTransients with inp := chunk }

/-- A successful CONSTRUCT writes all nine registers, the counter and the lifecycle bit in one step
(10_state.md R22, R30, R33). -/
def State.configure (s : State) (c : Cfg) (seed : Word16) : State :=
  { s with cfg := some c, seq := some seed, life := .configured }

/-- RESET: nothing of the configuration, the counter or an operation in progress is left
(70_reset_and_hazards.md R291, R292). -/
def State.restart (s : State) : State :=
  { s.clearTransients with life := .unconfigured, cfg := none, seq := none, port := .idle }

/-- Progress on the ports (44_pipeline_ops.md R217). -/
def State.setPort (s : State) (p : Port) : State := { s with port := p }

/-- A stage operation or transform mode run by itself: a raise ends it with its status and no output
(60_exceptions.md R266). -/
def runStage (r : StageOut) : Host.Outcome State Fault Refusal :=
  match r with
  | .done s => .next s
  | .raised e s => .next (s.reply e none)
  | .stopped f => .fault f

end Sys2Proof.Machine
end

