-- ==== Sys2Proof/Machine/Operands.lean ====
section
/-! DEFINITION. Operand assembly (30_encoding.md R86 to R91, R98) and the configuration registers by number
(10_state.md R21). The only addressing mode is the index into a byte space (44_pipeline_ops.md R211), which
Machine/Ops.lean holds. -/

namespace Sys2Proof.Machine

/-- The sequence seed `(seq_byte1 << 8) | seq_byte0` (30_encoding.md R86, 10_state.md R30). -/
def seqSeed (seqByte0 seqByte1 : Byte) : Word16 :=
  (seqByte1.setWidth 16 <<< (8 : Nat)) ||| seqByte0.setWidth 16

/-- A 16-bit value as two bytes, low byte first (30_encoding.md R87, 20_memory.md R54). -/
def lowFirst (v : Word16) : List Byte := [v.extractLsb' 0 8, v.extractLsb' 8 8]

/-- The length field: the payload length as an unsigned number of LEN_WIDTH bits, low byte first
(30_encoding.md R88, R80, R81). -/
def lengthField : LenWidth → Nat → List Byte
  | .w8, n => [BitVec.ofNat 8 n]
  | .w16, n => lowFirst (BitVec.ofNat 16 n)

/-- `b[7:4]` (30_encoding.md R90). -/
def highNibble (b : Byte) : Nibble := b.extractLsb' 4 4

/-- `b[3:0]` (30_encoding.md R90). -/
def lowNibble (b : Byte) : Nibble := b.extractLsb' 0 4

/-- The registers CONSTRUCT writes from its nine integers; 1 is true (44_pipeline_ops.md R198,
30_encoding.md R91). -/
def cfgOf (c : CfgFields) : Cfg where
  preambleBytes := BitVec.ofInt 16 c.preambleBytes
  syncByte0 := BitVec.ofInt 8 c.syncByte0
  syncByte1 := BitVec.ofInt 8 c.syncByte1
  syncWords := BitVec.ofInt 16 c.syncWords
  flags := BitVec.ofInt 8 c.flags
  fec := decide (c.fec = 1)
  whitening := decide (c.whitening = 1)
  seqByte0 := BitVec.ofInt 8 c.seqByte0
  seqByte1 := BitVec.ofInt 8 c.seqByte1

/-- `CFG[i]`, the value of the register with number `i` (10_state.md R21). -/
def cfgReg (c : Cfg) (i : Fin 9) : Nat :=
  match i with
  | 0 => c.preambleBytes.toNat
  | 1 => c.syncByte0.toNat
  | 2 => c.syncByte1.toNat
  | 3 => c.syncWords.toNat
  | 4 => c.flags.toNat
  | 5 => c.fec.toNat
  | 6 => c.whitening.toNat
  | 7 => c.seqByte0.toNat
  | 8 => c.seqByte1.toNat

/-- The operand field with number `i` (10_state.md R21). -/
def fieldReg (c : CfgFields) (i : Fin 9) : Int :=
  match i with
  | 0 => c.preambleBytes
  | 1 => c.syncByte0
  | 2 => c.syncByte1
  | 3 => c.syncWords
  | 4 => c.flags
  | 5 => c.fec
  | 6 => c.whitening
  | 7 => c.seqByte0
  | 8 => c.seqByte1

/-- The mode word: mode[1] = CFG.fec, mode[0] = CFG.whitening (30_encoding.md R98). -/
def modeWord (c : Cfg) : BitVec 2 := BitVec.ofBool c.fec ++ BitVec.ofBool c.whitening

end Sys2Proof.Machine
end

