-- ==== Sys2Proof/Machine/Flags.lean ====
section
/-! DEFINITION. The block has no flags or condition codes (10_state.md R28). What stands in their place are the
status codes (30_encoding.md R100) and the tests that choose one (60_exceptions.md R268). -/

namespace Sys2Proof.Machine

/-- The 3-bit code of a status (30_encoding.md R100). -/
def statusCode : Status → BitVec 3
  | .ok => 0
  | .invalidConfiguration => 1
  | .oversizedPayload => 2
  | .invalidEncoderInput => 3
  | .protocolError => 4

/-- The status a code stands for; codes 5 to 7 are never produced and stand for none (30_encoding.md R103). -/
def statusOfCode (w : BitVec 3) : Option Status :=
  if w = 0 then some .ok
  else if w = 1 then some .invalidConfiguration
  else if w = 2 then some .oversizedPayload
  else if w = 3 then some .invalidEncoderInput
  else if w = 4 then some .protocolError
  else none

/-- The field is in 0..255. -/
def isByteField (v : Int) : Bool := decide (0 ≤ v ∧ v ≤ 255)

/-- The field is in 0..2^CNT_WIDTH-1. -/
def isCountField (v : Int) : Bool := decide (0 ≤ v ∧ v < 2 ^ Config.cntWidth)

/-- The field is 0 or 1. -/
def isBoolField (v : Int) : Bool := decide (v = 0 ∨ v = 1)

/-- ValidCfg: every field inside the range of its declared type, and nothing else (44_pipeline_ops.md R199). -/
def validCfg (c : CfgFields) : Bool :=
  isCountField c.preambleBytes && isCountField c.syncWords &&
  isByteField c.syncByte0 && isByteField c.syncByte1 && isByteField c.flags &&
  isByteField c.seqByte0 && isByteField c.seqByte1 &&
  isBoolField c.fec && isBoolField c.whitening

/-- The tests of CONSTRUCT in their order: the lifecycle, then the validity (60_exceptions.md R268). -/
def constructError (life : Life) (c : CfgFields) : Option Status :=
  match life with
  | .configured => some .protocolError
  | .unconfigured => if validCfg c then none else some .invalidConfiguration

/-- The size check of ASSEMBLE (40_frame_assembler.md R125). -/
def oversized (n : Nat) : Bool := decide (Config.maxPayload < n)

end Sys2Proof.Machine
end

