-- ==== Sys2Proof/Machine/Assembler.lean ====
section
/-! DEFINITION. The Frame Assembler and the Sequence Counter: SEQ_READ, SEQ_INC, ASSEMBLE, PACK_HDR
(40_frame_assembler.md). -/

namespace Sys2Proof.Machine

/-- `s <- SEQ_READ()`: the current value of the counter is returned, and what follows goes on with it
(40_frame_assembler.md R121, R123). -/
def readSeq (s : State) (k : Word16 → State → StageOut) : StageOut :=
  withSeq s fun v => k v { s with seqVal := some v }

/-- SEQ_READ: the current value of the counter (40_frame_assembler.md R121). -/
def seqReadStage (s : State) : StageOut := readSeq s fun _ s => .done s

/-- SEQ_INC: the counter steps by one modulo 65536, with no mark of the wrap (40_frame_assembler.md R122). -/
def seqIncStage (s : State) : StageOut :=
  withSeq s fun v => .done { s with seq := some (v + 1) }

/-- PACK_HDR: flags, sequence low byte first, length (40_frame_assembler.md R124; formats HDR and HDR16,
30_encoding.md R80, R81). -/
def packHdr (lw : LenWidth) (flags : Byte) (sv : Word16) (n : Nat) : List Byte :=
  [flags] ++ lowFirst sv ++ lengthField lw n

/-- The part of ASSEMBLE between SEQ_READ and SEQ_INC: the header is packed with the value read, and header and
payload are written to FRAME (40_frame_assembler.md R123, R128). -/
def writeFrame (v : Word16) (s : State) : StageOut :=
  withCfg s fun c =>
    let hdr := packHdr Config.lenWidth c.flags v s.inp.length
    withSpace (memWrite [] 0 (hdr.map elemOf)) fun f =>
      withSpace (memRead s.inp 0 s.inp.length) fun payload =>
        withSpace (memWrite f Config.hdrLen payload) fun frame =>
          .done { s with frame := frame }

/-- ASSEMBLE: the size check before anything is read or written, then read, pack, copy, increment
(40_frame_assembler.md R123, R125, R126, R131). FRAME is a fresh sequence in every ASSEMBLE (10_state.md R35). -/
def assembleStage (s : State) : StageOut :=
  if oversized s.inp.length then raise .oversizedPayload s
  else
    readSeq s fun v s =>
      (writeFrame v s).andThen fun s =>
        (seqIncStage s).andThen fun s =>
          .done { s with seqVal := none }

/-- SEQ_READ as an operation (40_frame_assembler.md R121). -/
def execSeqRead (s : State) : Host.Outcome State Fault Refusal := runStage (seqReadStage s)

/-- SEQ_INC as an operation (40_frame_assembler.md R122). -/
def execSeqInc (s : State) : Host.Outcome State Fault Refusal := runStage (seqIncStage s)

/-- ASSEMBLE as an operation (40_frame_assembler.md R123). -/
def execAssemble (s : State) : Host.Outcome State Fault Refusal := runStage (assembleStage s)

end Sys2Proof.Machine
end

