-- ==== Sys2Proof/Machine/Inserter.lean ====
section
/-! DEFINITION. The Preamble/Sync Inserter: PREPEND (43_preamble_sync.md). -/

namespace Sys2Proof.Machine

/-- `rep(n, s)`: the sequence repeated `n` times (00_scope.md R11). -/
def rep {α : Type} (n : Nat) (l : List α) : List α := (List.replicate n l).flatten

/-- The preamble and sync sections, which depend on CFG alone (43_preamble_sync.md R181 to R183). -/
def linkPrefix (c : Cfg) : List Byte :=
  rep c.preambleBytes.toNat [Config.preambleByte] ++ rep c.syncWords.toNat [c.syncByte0, c.syncByte1]

/-- PREPEND: preamble, sync words, then the encoded frame unchanged, from ENC to OUT (43_preamble_sync.md R181,
R185; 30_encoding.md R85). OUT is a fresh sequence (10_state.md R35). -/
def prependStage (s : State) : StageOut :=
  withCfg s fun c =>
    withSpace (memWrite [] 0 (linkPrefix c ++ s.enc)) fun out => .done { s with out := out }

/-- PREPEND as an operation (43_preamble_sync.md R181). -/
def execPrepend (s : State) : Host.Outcome State Fault Refusal := runStage (prependStage s)

end Sys2Proof.Machine
end

