-- ==== Sys2Proof/Machine/Fec.lean ====
section
/-! DEFINITION. The FEC Encoder: the codeword CW, FEC_ENCODE and its bypass (42_fec_encoder.md). -/

namespace Sys2Proof.Machine

/-- CW(n): the data bits verbatim in bits 7:4, the parity bits p3 p2 p1 p0 in bits 3:0 (42_fec_encoder.md R166,
30_encoding.md R83). -/
def codeword (n : Nibble) : Byte :=
  let d0 := n.getLsbD 0
  let d1 := n.getLsbD 1
  let d2 := n.getLsbD 2
  let d3 := n.getLsbD 3
  let p0 := d0 ^^ d1 ^^ d3
  let p1 := d0 ^^ d2 ^^ d3
  let p2 := d1 ^^ d2 ^^ d3
  let p3 := d0 ^^ d1 ^^ d2
  n ++ BitVec.ofBool p3 ++ BitVec.ofBool p2 ++ BitVec.ofBool p1 ++ BitVec.ofBool p0

/-- The two codewords of one byte, high nibble first (42_fec_encoder.md R164). -/
def encodeByte (b : Byte) : List Byte := [codeword (highNibble b), codeword (lowNibble b)]

/-- FEC_ENCODE of a sequence of bytes (42_fec_encoder.md R164, 30_encoding.md R84). -/
def fecBytes (bs : List Byte) : List Byte := bs.flatMap encodeByte

/-- FEC_ENCODE of a sequence of elements: no result as soon as one is not a byte (42_fec_encoder.md R164, R169). -/
def fecEncode (xs : List Int) : Option (List Byte) :=
  match bytesOf xs with
  | some bs => some (fecBytes bs)
  | none => none

/-- FEC_ENCODE: FRAME to ENC; a non-byte element raises InvalidEncoderInput (42_fec_encoder.md R164, R169). ENC is
a fresh sequence (10_state.md R35). -/
def fecEncodeStage (s : State) : StageOut :=
  match fecEncode s.frame with
  | some e => withSpace (memWrite [] 0 e) fun enc => .done { s with enc := enc }
  | none => raise .invalidEncoderInput s

/-- The bypass: with fec = 0 the encoded frame is the frame itself (42_fec_encoder.md R162). A non-byte element
here is the model fault of 60_exceptions.md R263 and 93_implementation_defined.md U27. -/
def fecBypassStage (s : State) : StageOut :=
  match bytesOf s.frame with
  | some e => withSpace (memWrite [] 0 e) fun enc => .done { s with enc := enc }
  | none => .stopped .nonByte

/-- FEC_ENCODE as an operation (42_fec_encoder.md R164). -/
def execFecEncode (s : State) : Host.Outcome State Fault Refusal := runStage (fecEncodeStage s)

end Sys2Proof.Machine
end

