-- ==== Sys2Proof/Machine/Whitener.lean ====
section
/-! DEFINITION. The Whitener: the register W, the key bytes, WHITEN (41_whitener.md). -/

namespace Sys2Proof.Machine

/-- SHIFT(W): new W[8] = W[0] ^ W[5], new W[k] = old W[k+1] (41_whitener.md R145). -/
def lfsrShift (w : Lfsr) : Lfsr := BitVec.ofBool (w.getLsbD 0 ^^ w.getLsbD 5) ++ w.extractLsb' 1 8

/-- `n` shifts. -/
def lfsrShifts : Nat → Lfsr → Lfsr
  | 0, w => w
  | n + 1, w => lfsrShifts n (lfsrShift w)

/-- The key byte W[7:0] (41_whitener.md R146). -/
def lfsrKey (w : Lfsr) : Byte := w.extractLsb' 0 8

/-- KEY(i): W[7:0] after 8*i shifts from the seed (41_whitener.md R147). -/
def keyByte (i : Nat) : Byte := lfsrKey (lfsrShifts (Config.shiftsPerByte * i) Config.lfsrSeed)

/-- `x ^ key`, bit k of `x` with bit k of the key for k = 0..7 (41_whitener.md R146). Of an element that is no
byte the bits above bit 7 stay as they are, so it stays no byte. DEDUCED (log entry 5). -/
def xorElem (x : Int) (key : Byte) : Int :=
  256 * (x / 256) + ((BitVec.ofInt 8 x ^^^ key).toNat : Int)

/-- WHITEN with any key sequence in place of KEY (parameter WHITEN_LFSR, 41_whitener.md R153): element `i` is
XORed with key byte `i`. -/
def whitenWith (key : Nat → Byte) : List Int → List Int
  | [] => []
  | x :: xs => xorElem x (key 0) :: whitenWith (fun i => key (i + 1)) xs

/-- WHITEN(x): the sequence XORed with KEY(0), KEY(1), ... (41_whitener.md R146, R147). -/
def whitenSeq (xs : List Int) : List Int := whitenWith keyByte xs

/-- WHITEN of a sequence of bytes with any key sequence: byte `i` XORed with key byte `i` (41_whitener.md R147,
R153). With KEY it is the whitener alone and its own inverse (45_properties.md R231, R250). Elements that are bytes
whiten to the same bytes (Laws/Stages.lean, whitenSeq_map). -/
def xorBytes (key : Nat → Byte) : List Byte → List Byte
  | [] => []
  | b :: bs => (b ^^^ key 0) :: xorBytes (fun i => key (i + 1)) bs

/-- One turn of the loop of WHITEN, at frame index `i` with `w` in W: the byte is XORed in place with the key byte
(41_whitener.md R146). -/
def whitenByte (i : Nat) (w : Lfsr) (s : State) : StageOut :=
  withSpace (memRead s.frame i 1) fun x =>
    withSpace (memWrite s.frame i (x.map fun v => xorElem v (lfsrKey w))) fun frame =>
      .done { s with frame := frame }

/-- The loop of WHITEN over `n` bytes from index `i`: `w` goes into W, serves one byte, and is shifted eight times
for the next (41_whitener.md R146). -/
def whitenBytes : Nat → Nat → Lfsr → State → StageOut
  | 0, _, w, s => .done { s with w := some w }
  | n + 1, i, w, s =>
    (whitenByte i w { s with w := some w }).andThen
      (whitenBytes n (i + 1) (lfsrShifts Config.shiftsPerByte w))

/-- WHITEN: W is created and seeded anew for every frame, the frame bytes are whitened in place, and W is gone
afterwards (41_whitener.md R143, R146; 10_state.md R34). -/
def whitenStage (s : State) : StageOut :=
  (whitenBytes s.frame.length 0 Config.lfsrSeed s).andThen fun s =>
    .done { s with w := none }

/-- WHITEN as an operation (41_whitener.md R146). -/
def execWhiten (s : State) : Host.Outcome State Fault Refusal := runStage (whitenStage s)

end Sys2Proof.Machine
end

