-- ==== Sys2Proof/Machine/Modes.lean ====
section
/-! DEFINITION. The four transform modes of the frame (44_pipeline_ops.md R206 to R209, 42_fec_encoder.md R173). -/

namespace Sys2Proof.Machine

/-- XF_IDENTITY: the encoded frame is the frame (44_pipeline_ops.md R206). -/
def identityStage (s : State) : StageOut := fecBypassStage s

/-- XF_WHITENED: the encoded frame is WHITEN(frame) (44_pipeline_ops.md R207). -/
def whitenedStage (s : State) : StageOut := (whitenStage s).andThen fecBypassStage

/-- XF_FEC: the encoded frame is FEC_ENCODE(frame) (44_pipeline_ops.md R208). -/
def fecStage (s : State) : StageOut := fecEncodeStage s

/-- XF_BOTH: the encoded frame is FEC_ENCODE(WHITEN(frame)), whitening first (44_pipeline_ops.md R209). -/
def bothStage (s : State) : StageOut := (whitenStage s).andThen fecEncodeStage

/-- XF_IDENTITY as an operation. -/
def execXfIdentity (s : State) : Host.Outcome State Fault Refusal := runStage (identityStage s)

/-- XF_WHITENED as an operation. -/
def execXfWhitened (s : State) : Host.Outcome State Fault Refusal := runStage (whitenedStage s)

/-- XF_FEC as an operation. -/
def execXfFec (s : State) : Host.Outcome State Fault Refusal := runStage (fecStage s)

/-- XF_BOTH as an operation. -/
def execXfBoth (s : State) : Host.Outcome State Fault Refusal := runStage (bothStage s)

end Sys2Proof.Machine
end

