-- ==== Sys2Proof/Machine/HostOps.lean ====
section
/-! DEFINITION. The host operations RESET, NOP, CONSTRUCT, ENCODE and the reserved command RSVD3
(44_pipeline_ops.md, 70_reset_and_hazards.md R291). -/

namespace Sys2Proof.Machine

/-- RESET: legal in every state, has priority over everything, returns OK (70_reset_and_hazards.md R291). -/
def execReset (s : State) : Host.Outcome State Fault Refusal := .next (s.restart.reply .ok none)

/-- NOP: returns OK and writes nothing (44_pipeline_ops.md R197). -/
def execNop (s : State) : Host.Outcome State Fault Refusal := .next (s.reply .ok none)

/-- CONSTRUCT: refused when CONFIGURED or when the configuration is not valid, writing nothing; else CFG, SEQ and
LIFE in one step (44_pipeline_ops.md R198 to R201). -/
def execConstruct (c : CfgFields) (s : State) : Host.Outcome State Fault Refusal :=
  match constructError s.life c with
  | some e => .next (s.reply e none)
  | none =>
    let r := cfgOf c
    .next ((s.configure r (seqSeed r.seqByte0 r.seqByte1)).reply .ok none)

/-- The stages of an ENCODE whose chunk stands in IN, in their fixed order (44_pipeline_ops.md R203, R204). -/
def encodeStages (s : State) : StageOut :=
  (assembleStage s).andThen fun s =>
    withCfg s fun c =>
      (if c.whitening then whitenStage s else .done s).andThen fun s =>
        (if c.fec then fecEncodeStage s else fecBypassStage s).andThen fun s =>
          prependStage s

/-- The end of an ENCODE: the whole transmit unit with OK, or a status and no output (20_memory.md R60,
44_pipeline_ops.md R214). -/
def finishEncode (r : StageOut) : Host.Outcome State Fault Refusal :=
  match r with
  | .done s => .next (s.endEncode .ok (some s.out))
  | .raised e s => .next (s.endEncode e none)
  | .stopped f => .fault f

/-- ENCODE: ProtocolError when UNCONFIGURED, with nothing read or written; else the stages on the chunk
(44_pipeline_ops.md R203). -/
def execEncode (chunk : List Int) (s : State) : Host.Outcome State Fault Refusal :=
  match s.life with
  | .unconfigured => .next (s.reply .protocolError none)
  | .configured => finishEncode (encodeStages (s.loadChunk chunk))

/-- RSVD3: ProtocolError in either lifecycle state, writing nothing (44_pipeline_ops.md R213, 30_encoding.md R101). -/
def execRsvd3 (s : State) : Host.Outcome State Fault Refusal := .next (s.reply .protocolError none)

end Sys2Proof.Machine
end

