-- ==== Sys2Proof/Machine/Dispatch.lean ====
section
/-! DEFINITION. One arm per operation. -/

namespace Sys2Proof.Machine

def exec (i : Instr) (s : State) : Host.Outcome State Fault Refusal :=
  match i with
  | .reset => Sys2Proof.Machine.execReset s
  | .nop => Sys2Proof.Machine.execNop s
  | .construct c => Sys2Proof.Machine.execConstruct c s
  | .encode chunk => Sys2Proof.Machine.execEncode chunk s
  | .rsvd3 => Sys2Proof.Machine.execRsvd3 s
  | .xfIdentity => Sys2Proof.Machine.execXfIdentity s
  | .xfWhitened => Sys2Proof.Machine.execXfWhitened s
  | .xfFec => Sys2Proof.Machine.execXfFec s
  | .xfBoth => Sys2Proof.Machine.execXfBoth s
  | .assemble => Sys2Proof.Machine.execAssemble s
  | .whiten => Sys2Proof.Machine.execWhiten s
  | .fecEncode => Sys2Proof.Machine.execFecEncode s
  | .prepend => Sys2Proof.Machine.execPrepend s
  | .seqRead => Sys2Proof.Machine.execSeqRead s
  | .seqInc => Sys2Proof.Machine.execSeqInc s

end Sys2Proof.Machine
end

