-- ==== Sys2Proof/Machine/Ports.lean ====
section
/-! DEFINITION. The ports and the beat-level protocol: what one clock edge does and what the output pins show
(44_pipeline_ops.md R215 to R221, 70_reset_and_hazards.md R292). -/

namespace Sys2Proof.Machine

/-- The output pins while the state is `s` (44_pipeline_ops.md R215). A data output is `none` while its valid
pin is 0: the spec gives it a meaning only with valid. -/
structure OutPins where
  cmdReady : Bool
  inReady : Bool
  /-- out_valid with out_data and out_last. -/
  out : Option (Byte × Bool)
  /-- st_valid with st_code. -/
  st : Option (BitVec 3)
  deriving DecidableEq, Repr

/-- cmd_ready only while no operation is in progress (44_pipeline_ops.md R217), in_ready in the input phase
(R218), the bytes of OUT in index order with out_last on the last one (R220), the status for one clock (R221). That
the block makes no wait clocks, so that in_ready is 1 in every clock of the input phase and out_valid in every clock of
the output phase, is the model's choice. DESIGN CHOICE (log entry 19). -/
def outPins (s : State) : OutPins where
  cmdReady := match s.port with
    | .idle => true
    | _ => false
  inReady := match s.port with
    | .input _ => true
    | _ => false
  out := match s.port with
    | .output i => (s.out[i]?).map fun b => (b, i + 1 == s.out.length)
    | _ => none
  st := match s.port with
    | .status c => some (statusCode c)
    | _ => none

/-- An operation that makes no further beat ends: its status is shown at the next clock (44_pipeline_ops.md R217,
R221). -/
def showStatus (r : Host.Outcome State Fault Refusal) : Host.Outcome State Fault Refusal :=
  match r with
  | .next s =>
    match s.result with
    | some res => .next (s.setPort (.status res.status))
    | none => .next (s.setPort .idle)
  | .fault f => .fault f
  | .refused x => .refused x

/-- A command beat: the operation starts (44_pipeline_ops.md R217). ENCODE goes on with its input phase unless
the instance is UNCONFIGURED (R218). That the input phase begins in the very next clock is the model's choice.
DESIGN CHOICE (log entry 19). -/
def commandBeat (op : BitVec 2) (cfg : Cfgw) (s : State) : Host.Outcome State Fault Refusal :=
  if op = 0b00 then showStatus (execNop s)
  else if op = 0b01 then showStatus (execConstruct (unpackCfg cfg) s)
  else if op = 0b10 then
    match s.life with
    | .unconfigured => showStatus (.next (s.reply .protocolError none))
    | .configured => .next ((s.loadChunk []).setPort (.input false))
  else showStatus (execRsvd3 s)

/-- The bytes of IN and the overflow mark after one more input beat: a byte is taken if the beat carries one, and
discarded once MAX_PAYLOAD bytes have come (44_pipeline_ops.md R218, R219). -/
def takeByte (full : Bool) (keep : Bool) (b : Byte) (inp : List Int) : List Int × Bool :=
  if keep then
    if full || decide (Config.maxPayload ≤ inp.length) then (inp, true) else (inp ++ [elemOf b], false)
  else (inp, full)

/-- The last input beat has come: an oversized chunk ends the operation (44_pipeline_ops.md R219), else the stages
run and either the output phase begins with the whole transmit unit in OUT (R220) or the status is shown. That either
comes in the very next clock, so that the stages take no clock, is the model's choice. DESIGN CHOICE (log entry 19). -/
def chunkComplete (full : Bool) (s : State) : Host.Outcome State Fault Refusal :=
  if full then showStatus (finishEncode (raise .oversizedPayload s))
  else
    match encodeStages s with
    | .done t => .next (t.setPort (.output 0))
    | .raised e t => showStatus (finishEncode (.raised e t))
    | .stopped f => .fault f

/-- An input beat of the input phase (44_pipeline_ops.md R218). -/
def inputBeat (full : Bool) (p : Pins) (s : State) : Host.Outcome State Fault Refusal :=
  let taken := takeByte full p.inKeep p.inData s.inp
  let s := { s with inp := taken.1 }
  if p.inLast then chunkComplete taken.2 s else .next (s.setPort (.input taken.2))

/-- An output beat of the output phase: the next byte, or the end of the operation with OK after the last one
(44_pipeline_ops.md R220, R221). That the next byte, or the status, is shown in the very next clock is the model's
choice. DESIGN CHOICE (log entry 19). -/
def outputBeat (i : Nat) (s : State) : Host.Outcome State Fault Refusal :=
  if i + 1 < s.out.length then .next (s.setPort (.output (i + 1)))
  else if i < s.out.length then showStatus (finishEncode (.done s))
  else .fault .outsideSpace

/-- One clock edge. `rst` wins over everything and abandons the operation in progress with no status pulse
(70_reset_and_hazards.md R292, 60_exceptions.md R268). Otherwise a beat happens where valid and ready are both 1
(44_pipeline_ops.md R216); an edge without a beat changes nothing. -/
def clockEdge (p : Pins) (s : State) : Host.Outcome State Fault Refusal :=
  if p.rst then execReset s
  else
    match s.port with
    | .idle => if p.cmdValid then commandBeat p.cmdOp p.cmdCfg s else .next s
    | .input full => if p.inValid then inputBeat full p s else .next s
    | .output i => if p.outReady then outputBeat i s else .next s
    | .status _ => .next (s.setPort .idle)

/-- The output beat an edge makes, if it makes one: the byte and the last mark (44_pipeline_ops.md R216). With
`rst` = 1 there is no further beat (70_reset_and_hazards.md R292). -/
def outBeat (p : Pins) (s : State) : Option (Byte × Bool) :=
  if p.rst then none
  else if p.outReady then (outPins s).out
  else none

/-- The clock edges in order, stopping at the first fault or refusal. -/
def runEdges : List Pins → State → Host.Outcome State Fault Refusal
  | [], s => .next s
  | p :: ps, s =>
    match clockEdge p s with
    | .next t => runEdges ps t
    | .fault f => .fault f
    | .refused x => .refused x

/-- The output beats the clock edges make, in order. -/
def edgeOutput : List Pins → State → List (Byte × Bool)
  | [], _ => []
  | p :: ps, s =>
    let beat := (outBeat p s).toList
    match clockEdge p s with
    | .next t => beat ++ edgeOutput ps t
    | .fault _ => beat
    | .refused _ => beat

/-- The status pulses seen at the clock edges, in order (44_pipeline_ops.md R221). -/
def edgeStatus : List Pins → State → List (BitVec 3)
  | [], _ => []
  | p :: ps, s =>
    let pulse := (outPins s).st.toList
    match clockEdge p s with
    | .next t => pulse ++ edgeStatus ps t
    | .fault _ => pulse
    | .refused _ => pulse

/-- Pins on which the HOST asks for nothing. -/
def quietPins : Pins where
  rst := false
  cmdValid := false
  cmdOp := 0
  cmdCfg := 0
  inValid := false
  inData := 0
  inKeep := false
  inLast := false
  outReady := false

/-- Pins that present a command (44_pipeline_ops.md R215). -/
def commandPins (op : BitVec 2) (cfg : Cfgw) : Pins :=
  { quietPins with cmdValid := true, cmdOp := op, cmdCfg := cfg }

/-- Pins that present one chunk byte. -/
def bytePins (b : Byte) (last : Bool) : Pins :=
  { quietPins with inValid := true, inData := b, inKeep := true, inLast := last }

/-- Pins on which the HOST is ready to drain one byte. -/
def drainPins : Pins := { quietPins with outReady := true }

/-- The input beats of a chunk, one a byte with in_last on the last; the empty chunk is one beat with in_keep = 0
and in_last = 1 (44_pipeline_ops.md R218). -/
def chunkPins : List Byte → List Pins
  | [] => [{ quietPins with inValid := true, inLast := true }]
  | [b] => [bytePins b true]
  | b :: c :: bs => bytePins b false :: chunkPins (c :: bs)

/-- The chunk of a list of input beats: the bytes of those with in_keep = 1, in beat order; where in_valid is 0 there
is no beat (44_pipeline_ops.md R216, R218). -/
def keptBytes : List Pins → List Byte
  | [] => []
  | p :: ps => if p.inValid && p.inKeep then p.inData :: keptBytes ps else keptBytes ps

/-- The clock edges of one whole input phase: without `rst`, and with the beat that has in_last = 1 at the last of
them (44_pipeline_ops.md R218). The HOST may present no beat at any edge before it. -/
def isInputPhase : List Pins → Bool
  | [] => false
  | [p] => !p.rst && p.inValid && p.inLast
  | p :: q :: ps => !p.rst && !(p.inValid && p.inLast) && isInputPhase (q :: ps)

/-- The clock edges of one whole output phase of `n` bytes: without `rst`, with `n` edges at which the HOST is ready,
and the last of these at the end. The HOST may hold out_ready at 0 at any edge before it (44_pipeline_ops.md
R220). -/
def isOutputPhase : List Pins → Nat → Bool
  | [], n => n == 0
  | p :: ps, n => n != 0 && !p.rst && isOutputPhase ps (if p.outReady then n - 1 else n)

end Sys2Proof.Machine
end

