-- ==== Sys2Proof/Machine/Sequencer.lean ====
section
/-! DEFINITION. How the block comes to its next operation. There is no program counter and no fetch
(10_state.md R27): the HOST issues operations one after another and the block executes each to completion
(44_pipeline_ops.md R196). -/

namespace Sys2Proof.Machine

/-- A request is decoded and executed; an unused stage identifier is a fault (30_encoding.md R102, U16). -/
def runRequest (r : Request) (s : State) : Host.Outcome State Fault Refusal :=
  match decode r with
  | .ok i => exec i s
  | .error (.unusedStage w) => .fault (.unusedStage w)

/-- The next clock edge the HOST presents; without one nothing happens (70_reset_and_hazards.md R309). -/
def nextEdge (s : State) : Host.Outcome State Fault Refusal :=
  match s.edges with
  | [] => .next s
  | p :: ps => clockEdge p { s with edges := ps }

/-- The next request of the HOST is executed, whole, as one step (00_scope.md R14); without one the next clock edge
is taken. -/
def nextRequest (s : State) : Host.Outcome State Fault Refusal :=
  match s.requests with
  | [] => nextEdge s
  | h :: hs => runRequest (hostCommand h) { s with requests := hs }

/-- One step. While no operation is in progress on the ports the HOST's next request is executed, or an operation
placed by itself (log entry 9) before it; an operation in progress on the ports goes on edge by edge and no request
is accepted meanwhile (44_pipeline_ops.md R196, R217). With nothing to do the block idles and keeps its state
(60_exceptions.md R276). -/
def advance (s : State) : Host.Outcome State Fault Refusal :=
  match s.port with
  | .idle =>
    match s.placed with
    | some r => runRequest r { s with placed := none }
    | none => nextRequest s
  | _ => nextEdge s

/-- The operation the block executes next: a command as a request of the HOST, a mode or stage operation, which no
HOST can present, placed by itself (log entries 1 and 9). -/
def placeNext (s : State) (r : Request) : State :=
  match hostRequestOf r with
  | some h => { s with port := .idle, placed := none, requests := h :: s.requests }
  | none => { s with port := .idle, placed := some r }

/-- A sequence of operations executed one after another, stopping at the first fault or refusal: `run(ops)` of
45_properties.md, from any state. -/
def runOps : List Instr → State → Host.Outcome State Fault Refusal
  | [], s => .next s
  | i :: is, s =>
    match exec i s with
    | .next t => runOps is t
    | .fault f => .fault f
    | .refused x => .refused x

/-- The results the operations return, in order (45_properties.md, notation of `run(ops)`). -/
def resultsOf : List Instr → State → List (Option Result)
  | [], _ => []
  | i :: is, s =>
    match exec i s with
    | .next t => t.result :: resultsOf is t
    | .fault _ => []
    | .refused _ => []

end Sys2Proof.Machine
end

