-- ==== Sys2Proof/Machine/Step.lean ====
section
/-! DEFINITION. The step of the machine, and the placing of an instruction where the step takes its next one. -/

namespace Sys2Proof.Machine

/-- One step of the block (00_scope.md R14). -/
def step (s : State) : Host.Outcome State Fault Refusal := advance s

/-- `s` with the operation of a table word made the next one; a number that is no code word places nothing. -/
def State.withFetchWord (s : State) (nbits w : Nat) : State :=
  match tableRequest nbits w with
  | some r => placeNext s r
  | none => s

end Sys2Proof.Machine
end

