-- ==== Sys2Proof/Machine/Instances.lean ====
section
/-! DEFINITION. Several instances side by side: separate agents that share nothing and have no identifiers of
their own (10_state.md R37, 60_exceptions.md R275). -/

namespace Sys2Proof.Machine

/-- One step of the instance at position `k`; a position without an instance does nothing. -/
def stepInstance (k : Nat) (bank : List State) : Host.Outcome (List State) Fault Refusal :=
  match bank[k]? with
  | none => .next bank
  | some s =>
    match step s with
    | .next t => .next (bank.set k t)
    | .fault f => .fault f
    | .refused x => .refused x

/-- One operation executed by the instance at position `k`. -/
def execInstance (k : Nat) (i : Instr) (bank : List State) : Host.Outcome (List State) Fault Refusal :=
  match bank[k]? with
  | none => .next bank
  | some s =>
    match exec i s with
    | .next t => .next (bank.set k t)
    | .fault f => .fault f
    | .refused x => .refused x

end Sys2Proof.Machine
end

