-- ==== Sys2Proof/Machine/Reference.lean ====
section
/-! DEFINITION. What an ENCODE emits as a function of (CFG, SEQ, chunk) (45_properties.md R237), and the reference
inverse functions CW_DECODE, FEC_DECODE and DECODE_TU (R242, R243). They are evidence for the laws, not operations
of the block. The inverse of each transform is a definition of its own, so that each can be tested alone (R250):
`xorBytes keyByte` of the whitener, `cwDecode` and `fecDecode` of the FEC encoder, `unframe` of the framing, and
`decodeTu` of all together. -/

namespace Sys2Proof.Machine

/-- The frame of a chunk of bytes: header, then the payload verbatim (30_encoding.md R82). -/
def frameBytes (c : Cfg) (v : Word16) (bs : List Byte) : List Byte :=
  packHdr Config.lenWidth c.flags v bs.length ++ bs

/-- The frame of a chunk of elements (30_encoding.md R82, R94). -/
def frameElems (c : Cfg) (v : Word16) (xs : List Int) : List Int :=
  (packHdr Config.lenWidth c.flags v xs.length).map elemOf ++ xs

/-- The (possibly whitened) frame (41_whitener.md R149). -/
def whitenedFrame (c : Cfg) (f : List Byte) : List Byte := if c.whitening then xorBytes keyByte f else f

/-- The encoded frame: whitening always inside FEC (42_fec_encoder.md R173). -/
def encodedFrame (c : Cfg) (f : List Byte) : List Byte :=
  if c.fec then fecBytes (whitenedFrame c f) else whitenedFrame c f

/-- The transmit unit of a chunk of bytes (30_encoding.md R85). -/
def transmitUnit (c : Cfg) (v : Word16) (bs : List Byte) : List Byte :=
  linkPrefix c ++ encodedFrame c (frameBytes c v bs)

/-- The transform mode the two configuration booleans select (30_encoding.md R98). -/
def modeOp (c : Cfg) : Instr := decodeMode (modeWord c)

/-- What CW_DECODE returns (45_properties.md R242). -/
inductive CwResult where
  | clean (n : Nibble)
  | corrected (n : Nibble)
  | uncorrectable
  deriving DecidableEq, Repr

/-- The bit that a syndrome names (45_properties.md R242). -/
def syndromeBit (s2 s1 s0 : Bool) : Nat :=
  match s2, s1, s0 with
  | false, false, false => 3
  | false, false, true => 0
  | false, true, false => 1
  | true, false, false => 2
  | false, true, true => 4
  | true, false, true => 5
  | true, true, false => 6
  | true, true, true => 7

/-- CW_DECODE(r): corrects one wrong bit of a codeword, detects two (45_properties.md R242). With `fecDecode` the inverse of the FEC encoder alone (R250). -/
def cwDecode (r : Byte) : CwResult :=
  let d := highNibble r
  let s0 := r.getLsbD 0 ^^ d.getLsbD 0 ^^ d.getLsbD 1 ^^ d.getLsbD 3
  let s1 := r.getLsbD 1 ^^ d.getLsbD 0 ^^ d.getLsbD 2 ^^ d.getLsbD 3
  let s2 := r.getLsbD 2 ^^ d.getLsbD 1 ^^ d.getLsbD 2 ^^ d.getLsbD 3
  let q := r.getLsbD 7 ^^ r.getLsbD 6 ^^ r.getLsbD 5 ^^ r.getLsbD 4 ^^ r.getLsbD 3 ^^ r.getLsbD 2 ^^
    r.getLsbD 1 ^^ r.getLsbD 0
  if q then .corrected (highNibble (r ^^^ ((1 : Byte) <<< syndromeBit s2 s1 s0)))
  else if s2 || s1 || s0 then .uncorrectable
  else .clean d

/-- The nibble of a decoded codeword, if one was recovered. -/
def recoveredNibble : CwResult → Option Nibble
  | .clean n => some n
  | .corrected n => some n
  | .uncorrectable => none

/-- The nibble CW_DECODE recovers, if it recovers one. -/
def cwNibble (r : Byte) : Option Nibble := recoveredNibble (cwDecode r)

/-- The byte of two recovered nibbles, before the bytes decoded from what follows. -/
def pairNibbles : Option Nibble → Option Nibble → Option (List Byte) → Option (List Byte)
  | some h, some l, some xs => some ((h ++ l) :: xs)
  | _, _, _ => none

/-- FEC_DECODE(e): pairs the nibbles, high nibble first; fails on an odd length or an uncorrectable codeword
(45_properties.md R242). The inverse of the FEC encoder alone (R250). -/
def fecDecode : List Byte → Option (List Byte)
  | [] => some []
  | [_] => none
  | a :: b :: rest => pairNibbles (cwNibble a) (cwNibble b) (fecDecode rest)

/-- The flags, the sequence number and the payload of a frame whose length field is the payload's length
(45_properties.md R243). The inverse of the framing alone (R250). -/
def unframe : List Byte → Option (Byte × Word16 × List Byte)
  | flags :: lo :: hi :: n :: payload =>
    if payload.length = n.toNat then some (flags, hi ++ lo, payload) else none
  | _ => none

/-- DECODE_TU(cfg, tu): FEC first, whitening second, the preamble and sync sections stripped by their configured
counts (45_properties.md R243). The inverse of all transforms together (R250). -/
def decodeTu (c : Cfg) (tu : List Byte) : Option (Byte × Word16 × List Byte) :=
  let e := tu.drop (c.preambleBytes.toNat + 2 * c.syncWords.toNat)
  match (if c.fec then fecDecode e else some e) with
  | none => none
  | some w => unframe (if c.whitening then xorBytes keyByte w else w)

end Sys2Proof.Machine
end

