-- ==== Sys2Proof/Safety.lean ====
section
/-! DEFINITION. What claims use: the invariant of an instance, the rest between operations, and which operations
count as assembled frames. -/

namespace Sys2Proof.Machine

/-- CFG and SEQ hold a value exactly while the instance is CONFIGURED (10_state.md R25, R38; 60_exceptions.md R272). -/
def State.Coherent (s : State) : Prop :=
  match s.life with
  | .unconfigured => s.cfg = none ∧ s.seq = none
  | .configured => s.cfg.isSome = true ∧ s.seq.isSome = true

/-- The progress on the ports is one an accepted ENCODE can have: only a CONFIGURED instance has one, IN never
holds more than MAX_PAYLOAD bytes, and the byte to present exists (44_pipeline_ops.md R218 to R220). -/
def State.PortOk (s : State) : Prop :=
  match s.port with
  | .idle => True
  | .input full =>
    s.life = .configured ∧ (∀ x ∈ s.inp, IsByte x) ∧ s.inp.length ≤ Config.maxPayload ∧
      (full = true → s.inp.length = Config.maxPayload)
  | .output i => s.life = .configured ∧ i < s.out.length
  | .status _ => True

/-- The invariant of an instance: the registers hold values exactly when the lifecycle says so, W exists in no
state between two steps (10_state.md R34), and the progress on the ports is possible. -/
def State.Inv (s : State) : Prop := s.Coherent ∧ s.w = none ∧ s.PortOk

/-- Between operations the transient state is empty (10_state.md R35, R38) and the ports are idle. -/
def State.AtRest (s : State) : Prop :=
  s.w = none ∧ s.inp = [] ∧ s.frame = [] ∧ s.enc = [] ∧ s.out = [] ∧ s.seqVal = none ∧ s.port = .idle

/-- An ENCODE that passes the size check, so that its frame is assembled (45_properties.md R232, R245). -/
def passesSizeCheck : Instr → Bool
  | .encode chunk => decide (chunk.length ≤ Config.maxPayload)
  | _ => false

end Sys2Proof.Machine
end

