-- ==== Sys2Proof/Certificates/Slice0/Obligations.lean ====
section
/-! DEFINITION. The statements about the model. Where a statement writes a state as a record update, every field
the update does not name is unchanged: the statement holds its own frame. The field `result` is where the model
keeps what the HOST gets back (log entry 2). -/

open Sys2Proof Sys2Proof.Machine

/-! ## Encoding -/

/-- Log entries 1 and 4 say how a request carries an operation: whatever its operands, an encoded operation decodes
to itself. -/
def Obligations.EncodedOperationDecodesToItself : Prop :=
  ∀ i : Instr, decode (encode i) = .ok i

/-- 30_encoding.md R93: a packed configuration word is the packing of the nine fields read from it. -/
def Obligations.ConfigurationWordSurvivesUnpacking : Prop :=
  (∀ w : Cfgw, packCfg (unpackCfg w) = w) ∧ ∀ c : CfgFields, c.Fits → unpackCfg (packCfg c) = c

/-- Words written out from 30_encoding.md R97 to R99, the CFGW of 95_test_vectors.md V24, and the status codes of
R100 with the three codes R103 excludes. -/
def Obligations.CodesOfTheTablesAreRead : Prop :=
  (∀ o ch, decode ⟨.cmd 0b000, o, ch⟩ = .ok .nop) ∧
  (∀ o ch, decode ⟨.cmd 0b010, o, ch⟩ = .ok (.encode ch)) ∧
  (∀ ch, decode ⟨.cmd 0b001, .packed 0x089A4C00002D3910004, ch⟩ =
    .ok (.construct ⟨4, 0x91, 0xd3, 2, 0xC0, 0, 0, 0x69, 0x22⟩)) ∧
  (∀ o ch, decode ⟨.mode 0b10, o, ch⟩ = .ok .xfFec) ∧
  (∀ o ch, decode ⟨.stage 0b0010, o, ch⟩ = .ok .assemble) ∧
  (∀ o ch, decode ⟨.stage 0b0100, o, ch⟩ = .ok .whiten) ∧
  (∀ o ch, decode ⟨.stage 0b0110, o, ch⟩ = .ok .fecEncode) ∧
  (∀ o ch, decode ⟨.stage 0b1000, o, ch⟩ = .ok .prepend) ∧
  (∀ o ch, decode ⟨.stage 0b1010, o, ch⟩ = .ok .seqRead) ∧
  (∀ o ch, decode ⟨.stage 0b1011, o, ch⟩ = .ok .seqInc) ∧
  statusCode .ok = 0 ∧ statusCode .invalidConfiguration = 1 ∧ statusCode .oversizedPayload = 2 ∧
  statusCode .invalidEncoderInput = 3 ∧ statusCode .protocolError = 4 ∧
  (∀ st, statusOfCode (statusCode st) = some st) ∧
  (∀ w : BitVec 3, statusOfCode w = none ↔ 5 ≤ w.toNat)

/-! ## The step -/

/-- 00_scope.md R14, 44_pipeline_ops.md R196: with no operation in progress on the ports, the step takes the next
command of the HOST and is the execution of the operation its word decodes to. A request of a HOST is a command
(30_encoding.md R99, 44_pipeline_ops.md R195); an operation of another kind is executed only where it has been placed
by itself, which no HOST and no step does (log entries 1 and 9). -/
def Obligations.StepRunsTheDecodedOperation : Prop :=
  (∀ (s : State) (h : HostRequest) (hs : List HostRequest) (i : Instr),
    s.port = .idle → s.placed = none → s.requests = h :: hs → decode (hostCommand h) = .ok i →
    step s = exec i { s with requests := hs }) ∧
  (∀ (s : State) (r : Request) (i : Instr), s.port = .idle → s.placed = some r → decode r = .ok i →
    step s = exec i { s with placed := none }) ∧
  (∀ (h : HostRequest), ∃ i, decode (hostCommand h) = .ok i ∧ i.isHostOp = true)

/-- 60_exceptions.md R276, R277; 44_pipeline_ops.md R196; 30_encoding.md R102: what the step does otherwise. An
idle block keeps its state; without a request, or with an operation in progress on the ports, the next clock edge is
taken and no request is accepted (log entries 1 and 13 for the two input lists); an unused stage identifier, which can
only be placed by itself (log entry 9), is a fault. -/
def Obligations.StepWithoutADecodedOperation : Prop :=
  (∀ s : State, s.placed = none → s.requests = [] → s.edges = [] → step s = .next s) ∧
  (∀ s : State, s.port ≠ .idle → s.edges = [] → step s = .next s) ∧
  (∀ (s : State) (p : Pins) (ps : List Pins), s.port ≠ .idle ∨ (s.placed = none ∧ s.requests = []) →
    s.edges = p :: ps → step s = clockEdge p { s with edges := ps }) ∧
  (∀ (s : State) (r : Request) (w : BitVec 4), s.port = .idle → s.placed = some r → r.word = .stage w →
    w ∉ [0b0010#4, 0b0100#4, 0b0110#4, 0b1000#4, 0b1010#4, 0b1011#4] →
    step s = .fault (.unusedStage w))

/-- The very next step runs an operation placed by `withFetchWord` (log entries 1 and 9). -/
def Obligations.PlacedTableWordRunsNext : Prop :=
  ∀ (s : State) (nbits w : Nat) (i : Instr), decodeTableWord nbits w = some i →
    step (s.withFetchWord nbits w) = exec i { s with port := .idle, placed := none }

/-! ## RESET, NOP, RSVD3 -/

/-- 70_reset_and_hazards.md R291. The model's own clauses: the transient spaces are empty afterwards, IN too, for
which the spec gives no value (DESIGN CHOICE, log entry 7); the local value of ASSEMBLE is gone (log entry 8); the
field `result` is OK also where `rst` = 1 at a clock edge is RESET (DESIGN CHOICE, log entry 12). -/
def Obligations.ResetEndsTheConfiguration : Prop :=
  (∀ (w : BitVec 3) (o : CfgOperand) (ch : List Int), w.getLsbD 2 = true → decode ⟨.cmd w, o, ch⟩ = .ok .reset) ∧
  (∀ s : State, exec .reset s = .next
    { life := .unconfigured, cfg := none, seq := none, w := none, inp := [], frame := [], enc := [], out := [],
      seqVal := none, result := some ⟨.ok, none⟩, port := .idle, requests := s.requests,
      placed := s.placed, edges := s.edges }) ∧
  (∀ (p : Pins) (s : State), p.rst = true → clockEdge p s = exec .reset s) ∧
  (∀ s : State, s.Coherent → s.AtRest → s.life = .unconfigured →
    exec .reset s = .next { s with result := some ⟨.ok, none⟩ })

/-- 44_pipeline_ops.md R197. -/
def Obligations.NopReturnsOkAndWritesNothing : Prop :=
  (∀ (o : CfgOperand) (ch : List Int), decode ⟨.cmd 0b000, o, ch⟩ = .ok .nop) ∧
  ∀ s : State, exec .nop s = .next { s with result := some ⟨.ok, none⟩ }

/-- 30_encoding.md R101, 44_pipeline_ops.md R213. -/
def Obligations.ReservedCommandReturnsProtocolError : Prop :=
  (∀ (o : CfgOperand) (ch : List Int), decode ⟨.cmd 0b011, o, ch⟩ = .ok .rsvd3) ∧
  (∀ (o : CfgOperand) (ch : List Int), decode ⟨.cmd 0b111, o, ch⟩ = .ok .reset) ∧
  ∀ s : State, exec .rsvd3 s = .next { s with result := some ⟨.protocolError, none⟩ }

/-! ## CONSTRUCT -/

/-- 44_pipeline_ops.md R198, 10_state.md R22, R30: all nine registers, the seed and the lifecycle bit in one step. -/
def Obligations.ConstructWritesEveryRegister : Prop :=
  ∀ (c : CfgFields) (s : State), s.life = .unconfigured → validCfg c = true →
    ∃ (r : Cfg) (v : Word16),
      exec (.construct c) s = .next { s with
        life := .configured, cfg := some r, seq := some v, result := some ⟨.ok, none⟩ } ∧
      (∀ i : Fin 9, (cfgReg r i : Int) = fieldReg c i) ∧
      (v.toNat : Int) = 256 * c.seqByte1 + c.seqByte0

/-- 44_pipeline_ops.md R200, R201: a refused CONSTRUCT writes nothing, and after InvalidConfiguration another
CONSTRUCT may succeed. -/
def Obligations.RefusedConstructWritesNothing : Prop :=
  (∀ (c : CfgFields) (s : State), s.life = .configured →
    exec (.construct c) s = .next { s with result := some ⟨.protocolError, none⟩ }) ∧
  (∀ (c : CfgFields) (s : State), s.life = .unconfigured → validCfg c = false →
    ∃ t, exec (.construct c) s = .next t ∧ t = { s with result := some ⟨.invalidConfiguration, none⟩ } ∧
      ∀ d : CfgFields, validCfg d = true →
        ∃ u, exec (.construct d) t = .next u ∧ u.life = .configured ∧ u.result = some ⟨.ok, none⟩)

/-- 44_pipeline_ops.md R199: the validity predicate is the range checks and nothing else. -/
def Obligations.ValidConfigurationIsTheRangeChecks : Prop :=
  ∀ c : CfgFields, validCfg c = true ↔
    (0 ≤ c.preambleBytes ∧ c.preambleBytes < 65536) ∧ (0 ≤ c.syncWords ∧ c.syncWords < 65536) ∧
    (0 ≤ c.syncByte0 ∧ c.syncByte0 ≤ 255) ∧ (0 ≤ c.syncByte1 ∧ c.syncByte1 ≤ 255) ∧
    (0 ≤ c.flags ∧ c.flags ≤ 255) ∧ (0 ≤ c.seqByte0 ∧ c.seqByte0 ≤ 255) ∧
    (0 ≤ c.seqByte1 ∧ c.seqByte1 ≤ 255) ∧ (c.fec = 0 ∨ c.fec = 1) ∧ (c.whitening = 0 ∨ c.whitening = 1)

/-- 30_encoding.md R93, 44_pipeline_ops.md R200: CFGW holds exactly the valid configurations, so on the ports
InvalidConfiguration cannot arise. -/
def Obligations.ValidConfigurationIsWhatCfgwHolds : Prop :=
  ∀ c : CfgFields, validCfg c = true ↔ ∃ w : Cfgw, unpackCfg w = c

/-! ## ENCODE -/

/-- 44_pipeline_ops.md R203, R214; 60_exceptions.md R265: nothing read, nothing written. -/
def Obligations.EncodeWhileUnconfiguredIsRefused : Prop :=
  ∀ (ch : List Int) (s : State), s.life = .unconfigured →
    exec (.encode ch) s = .next { s with result := some ⟨.protocolError, none⟩ }

/-- 45_properties.md R234 for LIFE, CFG and SEQ. That the transient spaces and IN are empty afterwards is deduced (log
entry 10), and the local value of ASSEMBLE is the model's own field (log entry 8). -/
def Obligations.OversizedChunkIsRejected : Prop :=
  ∀ (ch : List Int) (s : State), s.life = .configured → 255 < ch.length →
    exec (.encode ch) s = .next { s with
      inp := [], frame := [], enc := [], out := [], w := none, seqVal := none,
      result := some ⟨.oversizedPayload, none⟩ }

/-- 44_pipeline_ops.md R203, R214; 10_state.md R31, R35: a legal chunk of bytes gives OK with its whole transmit
unit, the counter is stepped once modulo 65536, the transient state is gone, and nothing else is changed.
That IN is empty afterwards is deduced (log entry 10), and `seqVal` is the model's own field (log entry 8). -/
def Obligations.LegalChunkReturnsItsTransmitUnit : Prop :=
  ∀ (s : State) (c : Cfg) (v : Word16) (bs : List Byte),
    s.life = .configured → s.cfg = some c → s.seq = some v → bs.length ≤ 255 →
    ∃ v' : Word16, v'.toNat = (v.toNat + 1) % 65536 ∧
      exec (.encode (bs.map elemOf)) s = .next { s with
        inp := [], frame := [], enc := [], out := [], w := none, seqVal := none, seq := some v',
        result := some ⟨.ok, some (transmitUnit c v bs)⟩ }

/-- 60_exceptions.md R263, 42_fec_encoder.md R169, 40_frame_assembler.md R127: with fec = 1 a non-byte element ends
the ENCODE with InvalidEncoderInput; the sequence number is consumed and no byte is output, whitened or not. That
whitening keeps such an element a non-byte is deduced (log entry 5); that the transient spaces, IN and W are empty
afterwards is deduced (10_state.md R35, log entry 10), and `seqVal` is the model's own field (log entry 8). -/
def Obligations.NonByteChunkWithFecBurnsASequenceNumber : Prop :=
  ∀ (s : State) (c : Cfg) (v : Word16) (ch : List Int),
    s.life = .configured → s.cfg = some c → s.seq = some v → ch.length ≤ 255 → c.fec = true →
    (∃ x ∈ ch, x < 0 ∨ 255 < x) →
    exec (.encode ch) s = .next { s with
      inp := [], frame := [], enc := [], out := [], w := none, seqVal := none, seq := some (v + 1),
      result := some ⟨.invalidEncoderInput, none⟩ }

/-- 60_exceptions.md R263, 93_implementation_defined.md U27: with fec = 0 the model stops on a non-byte element
(log entry 6). -/
def Obligations.NonByteChunkWithoutFecStops : Prop :=
  ∀ (s : State) (c : Cfg) (v : Word16) (ch : List Int),
    s.life = .configured → s.cfg = some c → s.seq = some v → ch.length ≤ 255 → c.fec = false →
    (∃ x ∈ ch, x < 0 ∨ 255 < x) → exec (.encode ch) s = .fault .nonByte

/-- 60_exceptions.md R268: the first test that holds, in the order of the table, gives the status. The model's own: at
an edge with `rst` = 1 the field `result` is OK, as after RESET (DESIGN CHOICE, log entry 12); with whitening = 1 a
non-byte element reaches the FEC encoder because WHITEN keeps it a non-byte (DEDUCED, log entry 5). -/
def Obligations.ErrorsAreTestedInTheirOrder : Prop :=
  (∀ (w : BitVec 3) (o : CfgOperand) (ch : List Int), w.getLsbD 2 = true → decode ⟨.cmd w, o, ch⟩ = .ok .reset) ∧
  (∀ (p : Pins) (s : State), p.rst = true → clockEdge p s = exec .reset s) ∧
  (∀ (cf : CfgFields) (s : State), ∃ t, exec (.construct cf) s = .next t ∧
    t.result = some ⟨if s.life = .configured then .protocolError
      else if validCfg cf = false then .invalidConfiguration else .ok, none⟩) ∧
  (∀ (ch : List Int) (s : State), s.Coherent →
    (∀ c, s.cfg = some c → c.fec = false → ch.length ≤ 255 → ∀ x ∈ ch, IsByte x) →
    ∃ t r, exec (.encode ch) s = .next t ∧ t.result = some r ∧
      r.status = (if s.life = .unconfigured then .protocolError
        else if 255 < ch.length then .oversizedPayload
        else if ∃ x ∈ ch, ¬ IsByte x then .invalidEncoderInput else .ok) ∧
      (255 < ch.length → t.seq = s.seq)) ∧
  (∀ s : State, ∃ t, exec .rsvd3 s = .next t ∧ t.result = some ⟨.protocolError, none⟩)

/-- 44_pipeline_ops.md R203, R204; 30_encoding.md R98: an ENCODE is ASSEMBLE, the transform its two mode bits
select, and PREPEND, in this order, on a chunk placed in IN. Executing the stages one by one as operations is the
model's choice (log entry 9). -/
def Obligations.EncodeIsItsStagesInOrder : Prop :=
  ∀ (s : State) (c : Cfg) (v : Word16) (bs : List Byte),
    s.life = .configured → s.cfg = some c → s.seq = some v → bs.length ≤ 255 →
    ∃ t, runOps [.assemble, modeOp c, .prepend] (s.loadChunk (bs.map elemOf)) = .next t ∧
      exec (.encode (bs.map elemOf)) s = .next (t.endEncode .ok (some t.out))

/-! ## The stages

That a stage or a transform mode can be executed by itself is the model's choice (log entry 9). -/

/-- 40_frame_assembler.md R121, 30_encoding.md R99; `seqVal` is where the model keeps the value returned (log entry 8). -/
def Obligations.SeqReadReturnsTheCounter : Prop :=
  (∀ (o : CfgOperand) (ch : List Int), decode ⟨.stage 0b1010, o, ch⟩ = .ok .seqRead) ∧
  ∀ (s : State) (v : Word16), s.seq = some v → exec .seqRead s = .next { s with seqVal := some v }

/-- 40_frame_assembler.md R122. -/
def Obligations.SeqIncStepsTheCounter : Prop :=
  (∀ (o : CfgOperand) (ch : List Int), decode ⟨.stage 0b1011, o, ch⟩ = .ok .seqInc) ∧
  ∀ (s : State) (v : Word16), s.seq = some v →
    ∃ v' : Word16, v'.toNat = (v.toNat + 1) % 65536 ∧ exec .seqInc s = .next { s with seq := some v' }

/-- 40_frame_assembler.md R123, R124, R126, R128: flags, the sequence value before the increment low byte first,
the payload length, the payload verbatim; the counter steps once. `seqVal`, where SEQ_READ leaves its value, is the
model's own field, and that ASSEMBLE leaves none in it is its choice (log entry 8). -/
def Obligations.AssembleBuildsTheFrame : Prop :=
  ∀ (s : State) (c : Cfg) (v : Word16), s.cfg = some c → s.seq = some v → s.inp.length ≤ 255 →
    exec .assemble s = .next { s with
      frame := [(c.flags.toNat : Int), ((v.toNat % 256 : Nat) : Int), ((v.toNat / 256 : Nat) : Int),
        (s.inp.length : Int)] ++ s.inp,
      seq := some (v + 1), seqVal := none }

/-- 40_frame_assembler.md R125, R130: the size check is made before anything is read or written. -/
def Obligations.AssembleRejectsAnOversizedChunk : Prop :=
  ∀ s : State, 255 < s.inp.length →
    exec .assemble s = .next { s with result := some ⟨.oversizedPayload, none⟩ }

/-- 10_state.md R25, 60_exceptions.md R277: reading SEQ or CFG while it holds no value is a fault of the model. -/
def Obligations.ReadingNoValueIsAFault : Prop :=
  (∀ s : State, s.seq = none → exec .seqRead s = .fault .noValue ∧ exec .seqInc s = .fault .noValue) ∧
  (∀ s : State, s.cfg = none → exec .prepend s = .fault .noValue) ∧
  (∀ s : State, s.inp.length ≤ 255 → s.cfg = none ∨ s.seq = none → exec .assemble s = .fault .noValue) ∧
  (∀ (s : State) (ch : List Int), s.life = .configured → ch.length ≤ 255 → s.cfg = none ∨ s.seq = none →
    exec (.encode ch) s = .fault .noValue)

/-- 30_encoding.md R80, R81; 40_frame_assembler.md R124: the two header formats, low byte first. -/
def Obligations.HeaderFormatsAreLowByteFirst : Prop :=
  (∀ (f : Byte) (v : Word16) (n : Nat), n ≤ 255 →
    (packHdr .w8 f v n).map BitVec.toNat = [f.toNat, v.toNat % 256, v.toNat / 256, n]) ∧
  (∀ (f : Byte) (v : Word16) (n : Nat), n ≤ 65535 →
    (packHdr .w16 f v n).map BitVec.toNat = [f.toNat, v.toNat % 256, v.toNat / 256, n % 256, n / 256]) ∧
  Config.lenWidth = .w8

/-- 41_whitener.md R142, R146, R147: the byte at frame index i is XORed with KEY(i), in place; W is gone. -/
def Obligations.WhitenXorsEachByteWithItsKey : Prop :=
  (∀ (o : CfgOperand) (ch : List Int), decode ⟨.stage 0b0100, o, ch⟩ = .ok .whiten) ∧
  ∀ s : State, ∃ y : List Int, exec .whiten s = .next { s with frame := y, w := none } ∧
    y.length = s.frame.length ∧
    ∀ (i : Nat) (b : Byte), s.frame[i]? = some (elemOf b) → y[i]? = some (elemOf (b ^^^ keyByte i))

/-- 45_properties.md R231, the test of the whitener alone (R250): WHITEN executed twice on a frame of bytes, of any length, gives the frame back, and the
length is kept by each of the two. -/
def Obligations.WhiteningTwiceIsTheIdentity : Prop :=
  ∀ (s : State) (bs : List Byte), s.frame = bs.map elemOf →
    ∃ t, exec .whiten s = .next t ∧ t.frame.length = s.frame.length ∧
      exec .whiten t = .next { s with w := none }

/-- 41_whitener.md R145, R147: the register and its first key bytes. -/
def Obligations.WhiteningRegisterIsPn9 : Prop :=
  Config.lfsrSeed = 0x1FF ∧
  (∀ w : Lfsr, (lfsrShift w).getLsbD 8 = (w.getLsbD 0 ^^ w.getLsbD 5) ∧
    ∀ k : Fin 8, (lfsrShift w).getLsbD k.val = w.getLsbD (k.val + 1)) ∧
  (List.range 16).map keyByte =
    [0xFF, 0xE1, 0x1D, 0x9A, 0xED, 0x85, 0x33, 0x24, 0xEA, 0x7A, 0xD2, 0x39, 0x70, 0x97, 0x57, 0x0A]

/-- 41_whitener.md R148: W is never 0, runs through all 511 non-zero states, and the key bytes repeat with period
511. -/
def Obligations.KeyBytesHavePeriod511 : Prop :=
  (∀ n : Nat, lfsrShifts n Config.lfsrSeed ≠ 0) ∧
  (∀ w : Lfsr, w ≠ 0 → ∃ n < 511, lfsrShifts n Config.lfsrSeed = w) ∧
  ∀ i : Nat, keyByte (i + 511) = keyByte i

/-- 42_fec_encoder.md R164, R165: two codewords for each frame byte, the high nibble first; a non-byte element raises,
with no output. -/
def Obligations.FecEncodeWritesTwoCodewordsPerByte : Prop :=
  (∀ (o : CfgOperand) (ch : List Int), decode ⟨.stage 0b0110, o, ch⟩ = .ok .fecEncode) ∧
  (∀ (s : State) (bs : List Byte), s.frame = bs.map elemOf →
    ∃ e : List Byte, exec .fecEncode s = .next { s with enc := e } ∧ e.length = 2 * bs.length ∧
      ∀ (i : Nat) (b : Byte), bs[i]? = some b →
        e[2 * i]? = some (codeword (b.extractLsb' 4 4)) ∧ e[2 * i + 1]? = some (codeword (b.extractLsb' 0 4))) ∧
  (∀ s : State, (∃ x ∈ s.frame, x < 0 ∨ 255 < x) →
    exec .fecEncode s = .next { s with result := some ⟨.invalidEncoderInput, none⟩ })

/-- 42_fec_encoder.md R166 to R168: the parity equations, the even parity of the whole byte, the sixteen codewords,
and the minimum distance 4. -/
def Obligations.CodewordIsExtendedHamming : Prop :=
  (∀ n : Nibble, (codeword n).extractLsb' 4 4 = n ∧
    (codeword n).getLsbD 0 = (n.getLsbD 0 ^^ n.getLsbD 1 ^^ n.getLsbD 3) ∧
    (codeword n).getLsbD 1 = (n.getLsbD 0 ^^ n.getLsbD 2 ^^ n.getLsbD 3) ∧
    (codeword n).getLsbD 2 = (n.getLsbD 1 ^^ n.getLsbD 2 ^^ n.getLsbD 3) ∧
    (codeword n).getLsbD 3 = (n.getLsbD 0 ^^ n.getLsbD 1 ^^ n.getLsbD 2) ∧
    (List.range 8).countP (fun i => (codeword n).getLsbD i) % 2 = 0) ∧
  (List.range 16).map (fun n => codeword (BitVec.ofNat 4 n)) =
    [0x00, 0x1B, 0x2D, 0x36, 0x4E, 0x55, 0x63, 0x78, 0x87, 0x9C, 0xAA, 0xB1, 0xC9, 0xD2, 0xE4, 0xFF] ∧
  ∀ m n : Nibble, m ≠ n → 4 ≤ (List.range 8).countP fun i => (codeword m ^^^ codeword n).getLsbD i

/-- 45_properties.md R242, a test of the FEC encoder alone (R250): no, one or two wrong bits in a codeword. -/
def Obligations.DecoderCorrectsOneAndDetectsTwo : Prop :=
  (∀ n : Nibble, cwDecode (codeword n) = .clean n) ∧
  (∀ (n : Nibble) (i : Fin 8), cwDecode (codeword n ^^^ ((1 : Byte) <<< i.val)) = .corrected n) ∧
  (∀ (n : Nibble) (i j : Fin 8), i ≠ j →
    cwDecode (codeword n ^^^ ((1 : Byte) <<< i.val) ^^^ ((1 : Byte) <<< j.val)) = .uncorrectable)

/-- 45_properties.md R244, a test of the FEC encoder alone (R250). -/
def Obligations.OneWrongBitPerCodewordIsCorrected : Prop :=
  ∀ (x e : List Byte),
    List.Forall₂ (fun a b => b = a ∨ ∃ k : Fin 8, b = a ^^^ ((1 : Byte) <<< k.val)) (fecBytes x) e →
    fecDecode e = some x

/-- 20_memory.md R63; 43_preamble_sync.md R181 to R185: the index map of OUT. -/
def Obligations.PrependLaysOutTheTransmitUnit : Prop :=
  (∀ (o : CfgOperand) (ch : List Int), decode ⟨.stage 0b1000, o, ch⟩ = .ok .prepend) ∧
  ∀ (s : State) (c : Cfg), s.cfg = some c →
    ∃ o : List Byte, exec .prepend s = .next { s with out := o } ∧
      o.length = c.preambleBytes.toNat + 2 * c.syncWords.toNat + s.enc.length ∧
      (∀ i, i < c.preambleBytes.toNat → o[i]? = some 0xAA) ∧
      (∀ j, j < c.syncWords.toNat →
        o[c.preambleBytes.toNat + 2 * j]? = some c.syncByte0 ∧
        o[c.preambleBytes.toNat + 2 * j + 1]? = some c.syncByte1) ∧
      ∀ k, o[c.preambleBytes.toNat + 2 * c.syncWords.toNat + k]? = s.enc[k]?

/-- 44_pipeline_ops.md R206 to R209, 42_fec_encoder.md R173: the four transforms of a frame of bytes and their
lengths. -/
def Obligations.TransformModesEncodeTheFrame : Prop :=
  ∀ (s : State) (bs : List Byte), s.frame = bs.map elemOf →
    exec .xfIdentity s = .next { s with enc := bs } ∧
    exec .xfWhitened s = .next { s with
      frame := (xorBytes keyByte bs).map elemOf, enc := xorBytes keyByte bs, w := none } ∧
    exec .xfFec s = .next { s with enc := fecBytes bs } ∧
    exec .xfBoth s = .next { s with
      frame := (xorBytes keyByte bs).map elemOf, enc := fecBytes (xorBytes keyByte bs), w := none } ∧
    (xorBytes keyByte bs).length = bs.length ∧ (fecBytes bs).length = 2 * bs.length ∧
    (fecBytes (xorBytes keyByte bs)).length = 2 * bs.length

/-- 42_fec_encoder.md R169, 60_exceptions.md R263, R266, U27: the four transforms of a frame with a non-byte
element. The modes with FEC raise, the modes without stop (log entries 5 and 6). -/
def Obligations.TransformModesOfANonByteFrame : Prop :=
  ∀ s : State, (∃ x ∈ s.frame, x < 0 ∨ 255 < x) →
    exec .xfIdentity s = .fault .nonByte ∧
    exec .xfWhitened s = .fault .nonByte ∧
    exec .xfFec s = .next { s with result := some ⟨.invalidEncoderInput, none⟩ } ∧
    exec .xfBoth s = .next { s with
      frame := whitenSeq s.frame, w := none, result := some ⟨.invalidEncoderInput, none⟩ }

/-! ## Laws -/

/-- 45_properties.md R236. -/
def Obligations.LengthLaw : Prop :=
  ∀ (s t : State) (c : Cfg) (ch : List Int) (tu : List Byte),
    s.cfg = some c → exec (.encode ch) s = .next t → t.result = some ⟨.ok, some tu⟩ →
    tu.length = c.preambleBytes.toNat + 2 * c.syncWords.toNat + (if c.fec then 2 else 1) * (4 + ch.length) ∧
    4 ≤ tu.length ∧ tu.length ≤ 197123

/-- 45_properties.md R233. -/
def Obligations.SectionLengths : Prop :=
  ∀ (s t : State) (c : Cfg) (v : Word16) (bs : List Byte) (tu : List Byte),
    s.cfg = some c → s.seq = some v → exec (.encode (bs.map elemOf)) s = .next t →
    t.result = some ⟨.ok, some tu⟩ →
    (∀ i, i < c.preambleBytes.toNat → tu[i]? = some 0xAA) ∧
    (∀ j, j < c.syncWords.toNat →
      tu[c.preambleBytes.toNat + 2 * j]? = some c.syncByte0 ∧
      tu[c.preambleBytes.toNat + 2 * j + 1]? = some c.syncByte1) ∧
    tu.drop (c.preambleBytes.toNat + 2 * c.syncWords.toNat) = encodedFrame c (frameBytes c v bs)

/-- 45_properties.md R230, the test of the framing alone (R250). -/
def Obligations.PlainRoundTrip : Prop :=
  ∀ (s t : State) (c : Cfg) (ch : List Int) (tu : List Byte),
    s.cfg = some c → c.fec = false → c.whitening = false → ch.length ≤ 255 →
    exec (.encode ch) s = .next t → t.result = some ⟨.ok, some tu⟩ →
    (tu.drop (c.preambleBytes.toNat + 2 * c.syncWords.toNat + 4)).map elemOf = ch

/-- 45_properties.md R241, the test of all transforms together (R250). -/
def Obligations.TransmitUnitIsInvertible : Prop :=
  (∀ (s t : State) (c : Cfg) (v : Word16) (ch : List Int) (tu : List Byte),
    s.cfg = some c → s.seq = some v → exec (.encode ch) s = .next t → t.result = some ⟨.ok, some tu⟩ →
    ∃ bs : List Byte, ch = bs.map elemOf ∧ decodeTu c tu = some (c.flags, v, bs)) ∧
  (∀ (s t s' t' : State) (c : Cfg) (v v' : Word16) (ch ch' : List Int) (tu : List Byte),
    s.cfg = some c → s.seq = some v → exec (.encode ch) s = .next t → t.result = some ⟨.ok, some tu⟩ →
    s'.cfg = some c → s'.seq = some v' → exec (.encode ch') s' = .next t' → t'.result = some ⟨.ok, some tu⟩ →
    v = v' ∧ ch = ch')

/-- 45_properties.md R247. -/
def Obligations.PrefixDependsOnTheLinkRegistersAlone : Prop :=
  ∀ (s t s' t' : State) (c c' : Cfg) (ch ch' : List Int) (tu tu' : List Byte),
    s.cfg = some c → exec (.encode ch) s = .next t → t.result = some ⟨.ok, some tu⟩ →
    s'.cfg = some c' → exec (.encode ch') s' = .next t' → t'.result = some ⟨.ok, some tu'⟩ →
    c'.preambleBytes = c.preambleBytes → c'.syncByte0 = c.syncByte0 → c'.syncByte1 = c.syncByte1 →
    c'.syncWords = c.syncWords →
    tu'.take (c.preambleBytes.toNat + 2 * c.syncWords.toNat) =
      tu.take (c.preambleBytes.toNat + 2 * c.syncWords.toNat)

/-- 45_properties.md R248. -/
def Obligations.SameChunkTwiceDiffersInTheSequenceField : Prop :=
  ∀ (s t t' : State) (c : Cfg) (ch : List Int) (tu tu' : List Byte),
    s.cfg = some c → exec (.encode ch) s = .next t → t.result = some ⟨.ok, some tu⟩ →
    exec (.encode ch) t = .next t' → t'.result = some ⟨.ok, some tu'⟩ →
    tu ≠ tu' ∧ tu.length = tu'.length ∧
    (c.fec = false → ∀ i, i ≠ c.preambleBytes.toNat + 2 * c.syncWords.toNat + 1 →
      i ≠ c.preambleBytes.toNat + 2 * c.syncWords.toNat + 2 → tu[i]? = tu'[i]?) ∧
    (c.fec = true → ∀ i, i < c.preambleBytes.toNat + 2 * c.syncWords.toNat + 2 ∨
      c.preambleBytes.toNat + 2 * c.syncWords.toNat + 5 < i → tu[i]? = tu'[i]?)

/-- 45_properties.md R239. -/
def Obligations.FailedOperationChangesNothing : Prop :=
  ∀ (i : Instr) (s t : State) (r : Result), i.isHostOp = true → exec i s = .next t → t.result = some r →
    r.status ≠ .ok →
    r.unit = none ∧ t.life = s.life ∧ t.cfg = s.cfg ∧
    (r.status ≠ .invalidEncoderInput → t.seq = s.seq) ∧
    (r.status = .invalidEncoderInput → (∃ ch, i = .encode ch) ∧ ∃ v, s.seq = some v ∧ t.seq = some (v + 1))

/-- 30_encoding.md R95, 45_properties.md R249: every host operation returns a status, and a transmit unit exactly
when it is an ENCODE that ended OK. -/
def Obligations.ResultHoldsAUnitOnlyForOkEncode : Prop :=
  ∀ (i : Instr) (s t : State), i.isHostOp = true → exec i s = .next t →
    ∃ r, t.result = some r ∧ (r.unit.isSome = true ↔ r.status = .ok ∧ ∃ ch, i = .encode ch)

/-- 45_properties.md R240, for operations of every kind and for every clock edge on the ports. -/
def Obligations.ConfigurationIsImmutable : Prop :=
  (∀ (is : List Instr) (s t : State) (c : Cfg), s.life = .configured → s.cfg = some c →
    (∀ i ∈ is, i ≠ .reset) → runOps is s = .next t → t.life = .configured ∧ t.cfg = some c) ∧
  (∀ (ps : List Pins) (s t : State) (c : Cfg), s.life = .configured → s.cfg = some c →
    (∀ p ∈ ps, p.rst = false) → runEdges ps s = .next t → t.life = .configured ∧ t.cfg = some c)

/-- 45_properties.md R245. -/
def Obligations.CountingLaw : Prop :=
  ∀ (cf : CfgFields) (is : List Instr) (s s' t : State),
    exec (.construct cf) s = .next s' → s'.result = some ⟨.ok, none⟩ →
    (∀ i ∈ is, i.isHostOp = true ∧ i ≠ .reset) → runOps is s' = .next t →
    t.seq = some (BitVec.ofInt 16 (256 * cf.seqByte1 + cf.seqByte0 + (is.countP passesSizeCheck : Nat))) ∧
    (is.countP passesSizeCheck = 65536 → t.seq = s'.seq)

/-- 45_properties.md R232: after a successful CONSTRUCT and any further host operations but RESET, the next ENCODE that
passes the size check steps the counter from the seed plus the number of frames assembled before, and the header it
emits carries the value before the step. -/
def Obligations.SequenceProgression : Prop :=
  ∀ (cf : CfgFields) (is : List Instr) (ch : List Int) (s s' t u : State),
    exec (.construct cf) s = .next s' → s'.result = some ⟨.ok, none⟩ →
    (∀ i ∈ is, i.isHostOp = true ∧ i ≠ .reset) → runOps is s' = .next t →
    exec (.encode ch) t = .next u → passesSizeCheck (.encode ch) = true →
    u.seq = some (BitVec.ofInt 16 (256 * cf.seqByte1 + cf.seqByte0 + (is.countP passesSizeCheck : Nat) + 1)) ∧
    ∀ tu, u.result = some ⟨.ok, some tu⟩ → ∃ flags payload, decodeTu (cfgOf cf) tu = some (flags,
      BitVec.ofInt 16 (256 * cf.seqByte1 + cf.seqByte0 + (is.countP passesSizeCheck : Nat)), payload)

/-- 45_properties.md R237: the result of ENCODE is a function of (LIFE, CFG, SEQ, chunk); two instances constructed
alike and fed alike give the same results. -/
def Obligations.EncodeDependsOnConfigurationAndCounterAlone : Prop :=
  (∀ (s s' : State) (ch : List Int), s'.life = s.life → s'.cfg = s.cfg → s'.seq = s.seq →
    (∀ t, exec (.encode ch) s = .next t → ∃ t', exec (.encode ch) s' = .next t' ∧
      t'.result = t.result ∧ t'.life = t.life ∧ t'.cfg = t.cfg ∧ t'.seq = t.seq) ∧
    (∀ f, exec (.encode ch) s = .fault f → exec (.encode ch) s' = .fault f)) ∧
  (∀ (s s' : State) (cf : CfgFields) (chs : List (List Int)), s.life = .unconfigured → s'.life = .unconfigured →
    resultsOf (.construct cf :: chs.map Instr.encode) s = resultsOf (.construct cf :: chs.map Instr.encode) s')

/-- 45_properties.md R246: an operation or a step of one instance changes no other, and what it does at its own
position is the same whatever stands at the others. -/
def Obligations.InstancesAreIndependent : Prop :=
  (∀ (k j : Nat) (i : Instr) (bank bank' : List State), j ≠ k → execInstance k i bank = .next bank' →
    bank'[j]? = bank[j]?) ∧
  (∀ (k j : Nat) (bank bank' : List State), j ≠ k → stepInstance k bank = .next bank' → bank'[j]? = bank[j]?) ∧
  (∀ (k : Nat) (i : Instr) (bank bank' other : List State), other[k]? = bank[k]? →
    execInstance k i bank = .next bank' →
    ∃ other', execInstance k i other = .next other' ∧ other'[k]? = bank'[k]?) ∧
  (∀ (k : Nat) (bank bank' other : List State), other[k]? = bank[k]? → stepInstance k bank = .next bank' →
    ∃ other', stepInstance k other = .next other' ∧ other'[k]? = bank'[k]?)

/-! ## Invariants -/

/-- The invariant holds at power-on: 10_state.md R25, R38; 70_reset_and_hazards.md R291. The values of `inp`,
`seqVal`, `requests`, `placed`, `edges` at reset are the model's (log entries 1, 7, 8, 9, 13). -/
def Obligations.InvariantHoldsAtReset : Prop :=
  State.reset.Inv ∧ State.reset.AtRest ∧ State.reset.life = .unconfigured ∧ State.reset.cfg = none ∧
  State.reset.seq = none ∧ State.reset.result = none

/-- Every step keeps the invariant: CFG and SEQ hold values exactly while CONFIGURED (10_state.md R25, R38), W
survives no step (R34), and the progress on the ports stays possible (44_pipeline_ops.md R218 to R220). -/
def Obligations.EveryStepKeepsTheInvariant : Prop :=
  ∀ s t : State, s.Inv → step s = .next t → t.Inv

/-- 44_pipeline_ops.md R196, 60_exceptions.md R277: from a state that meets the invariant no clock edge stops the
machine, and no host operation does unless its chunk has a non-byte element and fec = 0 (log entry 6). -/
def Obligations.HostCannotStopTheMachine : Prop :=
  ∀ s : State, s.Inv →
    (∀ p : Pins, ∃ t, clockEdge p s = .next t) ∧
    (∀ i : Instr, i.isHostOp = true →
      (∀ ch c, i = .encode ch → s.cfg = some c → c.fec = false → ∀ x ∈ ch, IsByte x) →
      ∃ t, exec i s = .next t)

/-! ## The ports -/

/-- 70_reset_and_hazards.md R292: `rst` abandons the operation in progress; no further output beat and no status
pulse. -/
def Obligations.RstAbandonsTheOperation : Prop :=
  ∀ (p : Pins) (s : State), p.rst = true →
    outBeat p s = none ∧
    ∃ t, clockEdge p s = .next t ∧ exec .reset s = .next t ∧ t.port = .idle ∧
      (outPins t).st = none ∧ (outPins t).out = none

/-- 44_pipeline_ops.md R216 to R218, R220, R221: which pins are raised in which phase, and that an edge without a
beat changes nothing. That cmd_ready is 0 in the status clock is the model's choice (log entry 11), and so is that
in_ready and out_valid are 1 in every clock of their phase (log entry 19). -/
def Obligations.PinsFollowThePhase : Prop :=
  (∀ s : State, ((outPins s).cmdReady = true ↔ s.port = .idle) ∧
    ((outPins s).inReady = true ↔ ∃ full, s.port = .input full) ∧
    ((∀ i, s.port ≠ .output i) → (outPins s).out = none) ∧
    (∀ i, s.port = .output i → (outPins s).out = (s.out[i]?).map fun b => (b, i + 1 == s.out.length)) ∧
    (∀ st, (outPins s).st = some st ↔ ∃ c, s.port = .status c ∧ st = statusCode c)) ∧
  (∀ (p : Pins) (s : State), p.rst = false →
    (s.port = .idle ∧ p.cmdValid = false) ∨ ((∃ full, s.port = .input full) ∧ p.inValid = false) ∨
      ((∃ i, s.port = .output i) ∧ p.outReady = false) →
    clockEdge p s = .next s ∧ outBeat p s = none)

/-- 44_pipeline_ops.md R217, R218, R221: a command that makes no data beat ends at the next clock with the status
and the state of the whole operation, and one status pulse, whatever the pins are that a command beat does not read.
That no command is accepted in the status clock is the model's choice (log entry 11). -/
def Obligations.PortCommandEndsAtTheNextClock : Prop :=
  ∀ (s : State) (command close : Pins) (i : Instr), s.port = .idle →
    command.rst = false → command.cmdValid = true → close.rst = false →
    (command.cmdOp = 0b00 ∧ i = .nop) ∨ (command.cmdOp = 0b01 ∧ i = .construct (unpackCfg command.cmdCfg)) ∨
      (command.cmdOp = 0b11 ∧ i = .rsvd3) ∨
      (command.cmdOp = 0b10 ∧ s.life = .unconfigured ∧ ∃ ch, i = .encode ch) →
    ∃ t r, exec i s = .next t ∧ t.result = some r ∧
      runEdges [command, close] s = .next t ∧
      edgeOutput [command, close] s = [] ∧
      edgeStatus [command, close] s = [statusCode r.status]

/-- 44_pipeline_ops.md R215 to R218, R220 to R222: an ENCODE carried over the ports delivers the bytes of the transmit
unit in index order with the last one marked, then one OK pulse, and leaves the state the whole operation leaves. The
chunk is what the input beats with in_keep = 1 carry, whatever beats carry no byte, at whatever edges the HOST presents
no beat or is not ready, and whatever the pins are that the phase does not read. That no command is accepted in the
status clock is the model's choice (log entry 11), and so is that the block makes no wait clocks: each phase and the
status follow in the very next clock, and every byte is taken or shown in the clock the HOST gives it (log entry 19). -/
def Obligations.PortEncodeDeliversTheTransmitUnit : Prop :=
  ∀ (s : State) (c : Cfg) (v : Word16) (command close : Pins) (input drain : List Pins),
    s.port = .idle → s.life = .configured → s.cfg = some c → s.seq = some v →
    command.rst = false → command.cmdValid = true → command.cmdOp = 0b10 →
    isInputPhase input = true → (keptBytes input).length ≤ 255 →
    isOutputPhase drain (transmitUnit c v (keptBytes input)).length = true → close.rst = false →
    ∃ t, exec (.encode ((keptBytes input).map elemOf)) s = .next t ∧
      runEdges (command :: input ++ drain ++ [close]) s = .next t ∧
      edgeOutput (command :: input ++ drain ++ [close]) s =
        (transmitUnit c v (keptBytes input)).zip
          (List.replicate ((transmitUnit c v (keptBytes input)).length - 1) false ++ [true]) ∧
      edgeStatus (command :: input ++ drain ++ [close]) s = [0]

/-- 44_pipeline_ops.md R215 to R219, R221: an oversized chunk is taken to its last beat, then the operation ends with
OversizedPayload, no output beat and the state of the whole operation, whatever beats carry no byte and whatever the
pins are that the phase does not read. That no command is accepted in the status clock is the model's choice (log
entry 11), and so is that the block makes no wait clocks (log entry 19). -/
def Obligations.PortOversizedChunkIsDiscarded : Prop :=
  ∀ (s : State) (command close : Pins) (input : List Pins), s.port = .idle → s.life = .configured →
    command.rst = false → command.cmdValid = true → command.cmdOp = 0b10 →
    isInputPhase input = true → 255 < (keptBytes input).length → close.rst = false →
    ∃ t, exec (.encode ((keptBytes input).map elemOf)) s = .next t ∧
      runEdges (command :: input ++ [close]) s = .next t ∧
      edgeOutput (command :: input ++ [close]) s = [] ∧
      edgeStatus (command :: input ++ [close]) s = [2]

/-! ## The counter in the hands of a HOST -/

/-- 10_state.md R29 to R32: in the hands of a HOST, by requests and pins, no step gives SEQ a value but by one step
modulo 65536 or, where a CONSTRUCT succeeds, by seeding it; RESET takes its value away. `placed` is the one way to an
operation no HOST can present, and no step sets it (log entry 9). -/
def Obligations.HostCannotSetTheCounter : Prop :=
  ∀ s t : State, s.placed = none → step s = .next t →
    t.placed = none ∧
    (t.seq = s.seq ∨
      (∃ v v' : Word16, t.life = s.life ∧ s.seq = some v ∧ t.seq = some v' ∧ v'.toNat = (v.toNat + 1) % 65536) ∨
      (∃ (c : Cfg) (v : Word16), s.life = .unconfigured ∧ t.life = .configured ∧ t.cfg = some c ∧ t.seq = some v ∧
        v.toNat = 256 * c.seqByte1.toNat + c.seqByte0.toNat) ∨
      (t.life = .unconfigured ∧ t.seq = none))

/-- 45_properties.md R245 as one step of it, 10_state.md R31: a host operation other than RESET steps the counter by one
if it is an ENCODE that passes the size check, else not at all. -/
def Obligations.EachHostOperationCountsItself : Prop :=
  ∀ (i : Instr) (s t : State) (v : Word16), s.life = .configured → s.seq = some v →
    i.isHostOp = true → i ≠ .reset → exec i s = .next t →
    t.life = .configured ∧ t.seq = some (v + (if passesSizeCheck i then 1 else 0))
end

