-- ==== Sys2Proof/Laws/State.lean ====
section
/-! SUPPORT. One lemma per field per named update of the state, each true by unfolding the update. -/

namespace Sys2Proof.Machine

@[simp] theorem State.reply_life (s : State) (st : Status) (u : Option (List Byte)) : (s.reply st u).life = s.life := rfl
@[simp] theorem State.reply_cfg (s : State) (st : Status) (u : Option (List Byte)) : (s.reply st u).cfg = s.cfg := rfl
@[simp] theorem State.reply_seq (s : State) (st : Status) (u : Option (List Byte)) : (s.reply st u).seq = s.seq := rfl
@[simp] theorem State.reply_w (s : State) (st : Status) (u : Option (List Byte)) : (s.reply st u).w = s.w := rfl
@[simp] theorem State.reply_inp (s : State) (st : Status) (u : Option (List Byte)) : (s.reply st u).inp = s.inp := rfl
@[simp] theorem State.reply_frame (s : State) (st : Status) (u : Option (List Byte)) : (s.reply st u).frame = s.frame := rfl
@[simp] theorem State.reply_enc (s : State) (st : Status) (u : Option (List Byte)) : (s.reply st u).enc = s.enc := rfl
@[simp] theorem State.reply_out (s : State) (st : Status) (u : Option (List Byte)) : (s.reply st u).out = s.out := rfl
@[simp] theorem State.reply_seqVal (s : State) (st : Status) (u : Option (List Byte)) : (s.reply st u).seqVal = s.seqVal := rfl
@[simp] theorem State.reply_result (s : State) (st : Status) (u : Option (List Byte)) : (s.reply st u).result = some ⟨st, u⟩ := rfl
@[simp] theorem State.reply_port (s : State) (st : Status) (u : Option (List Byte)) : (s.reply st u).port = s.port := rfl
@[simp] theorem State.reply_requests (s : State) (st : Status) (u : Option (List Byte)) : (s.reply st u).requests = s.requests := rfl
@[simp] theorem State.reply_edges (s : State) (st : Status) (u : Option (List Byte)) : (s.reply st u).edges = s.edges := rfl
@[simp] theorem State.reply_placed (s : State) (st : Status) (u : Option (List Byte)) : (s.reply st u).placed = s.placed := rfl

@[simp] theorem State.clearTransients_life (s : State) : (s.clearTransients).life = s.life := rfl
@[simp] theorem State.clearTransients_cfg (s : State) : (s.clearTransients).cfg = s.cfg := rfl
@[simp] theorem State.clearTransients_seq (s : State) : (s.clearTransients).seq = s.seq := rfl
@[simp] theorem State.clearTransients_w (s : State) : (s.clearTransients).w = none := rfl
@[simp] theorem State.clearTransients_inp (s : State) : (s.clearTransients).inp = [] := rfl
@[simp] theorem State.clearTransients_frame (s : State) : (s.clearTransients).frame = [] := rfl
@[simp] theorem State.clearTransients_enc (s : State) : (s.clearTransients).enc = [] := rfl
@[simp] theorem State.clearTransients_out (s : State) : (s.clearTransients).out = [] := rfl
@[simp] theorem State.clearTransients_seqVal (s : State) : (s.clearTransients).seqVal = none := rfl
@[simp] theorem State.clearTransients_result (s : State) : (s.clearTransients).result = s.result := rfl
@[simp] theorem State.clearTransients_port (s : State) : (s.clearTransients).port = s.port := rfl
@[simp] theorem State.clearTransients_requests (s : State) : (s.clearTransients).requests = s.requests := rfl
@[simp] theorem State.clearTransients_edges (s : State) : (s.clearTransients).edges = s.edges := rfl
@[simp] theorem State.clearTransients_placed (s : State) : (s.clearTransients).placed = s.placed := rfl

@[simp] theorem State.endEncode_life (s : State) (st : Status) (u : Option (List Byte)) : (s.endEncode st u).life = s.life := rfl
@[simp] theorem State.endEncode_cfg (s : State) (st : Status) (u : Option (List Byte)) : (s.endEncode st u).cfg = s.cfg := rfl
@[simp] theorem State.endEncode_seq (s : State) (st : Status) (u : Option (List Byte)) : (s.endEncode st u).seq = s.seq := rfl
@[simp] theorem State.endEncode_w (s : State) (st : Status) (u : Option (List Byte)) : (s.endEncode st u).w = none := rfl
@[simp] theorem State.endEncode_inp (s : State) (st : Status) (u : Option (List Byte)) : (s.endEncode st u).inp = [] := rfl
@[simp] theorem State.endEncode_frame (s : State) (st : Status) (u : Option (List Byte)) : (s.endEncode st u).frame = [] := rfl
@[simp] theorem State.endEncode_enc (s : State) (st : Status) (u : Option (List Byte)) : (s.endEncode st u).enc = [] := rfl
@[simp] theorem State.endEncode_out (s : State) (st : Status) (u : Option (List Byte)) : (s.endEncode st u).out = [] := rfl
@[simp] theorem State.endEncode_seqVal (s : State) (st : Status) (u : Option (List Byte)) : (s.endEncode st u).seqVal = none := rfl
@[simp] theorem State.endEncode_result (s : State) (st : Status) (u : Option (List Byte)) : (s.endEncode st u).result = some ⟨st, u⟩ := rfl
@[simp] theorem State.endEncode_port (s : State) (st : Status) (u : Option (List Byte)) : (s.endEncode st u).port = s.port := rfl
@[simp] theorem State.endEncode_requests (s : State) (st : Status) (u : Option (List Byte)) : (s.endEncode st u).requests = s.requests := rfl
@[simp] theorem State.endEncode_edges (s : State) (st : Status) (u : Option (List Byte)) : (s.endEncode st u).edges = s.edges := rfl
@[simp] theorem State.endEncode_placed (s : State) (st : Status) (u : Option (List Byte)) : (s.endEncode st u).placed = s.placed := rfl

@[simp] theorem State.loadChunk_life (s : State) (ch : List Int) : (s.loadChunk ch).life = s.life := rfl
@[simp] theorem State.loadChunk_cfg (s : State) (ch : List Int) : (s.loadChunk ch).cfg = s.cfg := rfl
@[simp] theorem State.loadChunk_seq (s : State) (ch : List Int) : (s.loadChunk ch).seq = s.seq := rfl
@[simp] theorem State.loadChunk_w (s : State) (ch : List Int) : (s.loadChunk ch).w = none := rfl
@[simp] theorem State.loadChunk_inp (s : State) (ch : List Int) : (s.loadChunk ch).inp = ch := rfl
@[simp] theorem State.loadChunk_frame (s : State) (ch : List Int) : (s.loadChunk ch).frame = [] := rfl
@[simp] theorem State.loadChunk_enc (s : State) (ch : List Int) : (s.loadChunk ch).enc = [] := rfl
@[simp] theorem State.loadChunk_out (s : State) (ch : List Int) : (s.loadChunk ch).out = [] := rfl
@[simp] theorem State.loadChunk_seqVal (s : State) (ch : List Int) : (s.loadChunk ch).seqVal = none := rfl
@[simp] theorem State.loadChunk_result (s : State) (ch : List Int) : (s.loadChunk ch).result = s.result := rfl
@[simp] theorem State.loadChunk_port (s : State) (ch : List Int) : (s.loadChunk ch).port = s.port := rfl
@[simp] theorem State.loadChunk_requests (s : State) (ch : List Int) : (s.loadChunk ch).requests = s.requests := rfl
@[simp] theorem State.loadChunk_edges (s : State) (ch : List Int) : (s.loadChunk ch).edges = s.edges := rfl
@[simp] theorem State.loadChunk_placed (s : State) (ch : List Int) : (s.loadChunk ch).placed = s.placed := rfl

@[simp] theorem State.configure_life (s : State) (c : Cfg) (v : Word16) : (s.configure c v).life = .configured := rfl
@[simp] theorem State.configure_cfg (s : State) (c : Cfg) (v : Word16) : (s.configure c v).cfg = some c := rfl
@[simp] theorem State.configure_seq (s : State) (c : Cfg) (v : Word16) : (s.configure c v).seq = some v := rfl
@[simp] theorem State.configure_w (s : State) (c : Cfg) (v : Word16) : (s.configure c v).w = s.w := rfl
@[simp] theorem State.configure_inp (s : State) (c : Cfg) (v : Word16) : (s.configure c v).inp = s.inp := rfl
@[simp] theorem State.configure_frame (s : State) (c : Cfg) (v : Word16) : (s.configure c v).frame = s.frame := rfl
@[simp] theorem State.configure_enc (s : State) (c : Cfg) (v : Word16) : (s.configure c v).enc = s.enc := rfl
@[simp] theorem State.configure_out (s : State) (c : Cfg) (v : Word16) : (s.configure c v).out = s.out := rfl
@[simp] theorem State.configure_seqVal (s : State) (c : Cfg) (v : Word16) : (s.configure c v).seqVal = s.seqVal := rfl
@[simp] theorem State.configure_result (s : State) (c : Cfg) (v : Word16) : (s.configure c v).result = s.result := rfl
@[simp] theorem State.configure_port (s : State) (c : Cfg) (v : Word16) : (s.configure c v).port = s.port := rfl
@[simp] theorem State.configure_requests (s : State) (c : Cfg) (v : Word16) : (s.configure c v).requests = s.requests := rfl
@[simp] theorem State.configure_edges (s : State) (c : Cfg) (v : Word16) : (s.configure c v).edges = s.edges := rfl
@[simp] theorem State.configure_placed (s : State) (c : Cfg) (v : Word16) : (s.configure c v).placed = s.placed := rfl

@[simp] theorem State.restart_life (s : State) : (s.restart).life = .unconfigured := rfl
@[simp] theorem State.restart_cfg (s : State) : (s.restart).cfg = none := rfl
@[simp] theorem State.restart_seq (s : State) : (s.restart).seq = none := rfl
@[simp] theorem State.restart_w (s : State) : (s.restart).w = none := rfl
@[simp] theorem State.restart_inp (s : State) : (s.restart).inp = [] := rfl
@[simp] theorem State.restart_frame (s : State) : (s.restart).frame = [] := rfl
@[simp] theorem State.restart_enc (s : State) : (s.restart).enc = [] := rfl
@[simp] theorem State.restart_out (s : State) : (s.restart).out = [] := rfl
@[simp] theorem State.restart_seqVal (s : State) : (s.restart).seqVal = none := rfl
@[simp] theorem State.restart_result (s : State) : (s.restart).result = s.result := rfl
@[simp] theorem State.restart_port (s : State) : (s.restart).port = .idle := rfl
@[simp] theorem State.restart_requests (s : State) : (s.restart).requests = s.requests := rfl
@[simp] theorem State.restart_edges (s : State) : (s.restart).edges = s.edges := rfl
@[simp] theorem State.restart_placed (s : State) : (s.restart).placed = s.placed := rfl

@[simp] theorem State.setPort_life (s : State) (p : Port) : (s.setPort p).life = s.life := rfl
@[simp] theorem State.setPort_cfg (s : State) (p : Port) : (s.setPort p).cfg = s.cfg := rfl
@[simp] theorem State.setPort_seq (s : State) (p : Port) : (s.setPort p).seq = s.seq := rfl
@[simp] theorem State.setPort_w (s : State) (p : Port) : (s.setPort p).w = s.w := rfl
@[simp] theorem State.setPort_inp (s : State) (p : Port) : (s.setPort p).inp = s.inp := rfl
@[simp] theorem State.setPort_frame (s : State) (p : Port) : (s.setPort p).frame = s.frame := rfl
@[simp] theorem State.setPort_enc (s : State) (p : Port) : (s.setPort p).enc = s.enc := rfl
@[simp] theorem State.setPort_out (s : State) (p : Port) : (s.setPort p).out = s.out := rfl
@[simp] theorem State.setPort_seqVal (s : State) (p : Port) : (s.setPort p).seqVal = s.seqVal := rfl
@[simp] theorem State.setPort_result (s : State) (p : Port) : (s.setPort p).result = s.result := rfl
@[simp] theorem State.setPort_port (s : State) (p : Port) : (s.setPort p).port = p := rfl
@[simp] theorem State.setPort_requests (s : State) (p : Port) : (s.setPort p).requests = s.requests := rfl
@[simp] theorem State.setPort_edges (s : State) (p : Port) : (s.setPort p).edges = s.edges := rfl
@[simp] theorem State.setPort_placed (s : State) (p : Port) : (s.setPort p).placed = s.placed := rfl


/-- A command is placed as a request of the HOST. -/
theorem placeNext_host {r : Request} {h : HostRequest} (s : State) (hr : hostRequestOf r = some h) :
    placeNext s r = { s with port := .idle, placed := none, requests := h :: s.requests } := by
  simp [placeNext, hr]

/-- A mode or stage operation is placed by itself. -/
theorem placeNext_internal {r : Request} (s : State) (hr : hostRequestOf r = none) :
    placeNext s r = { s with port := .idle, placed := some r } := by
  simp [placeNext, hr]

/-- Every command word is one a HOST can present, and presenting it is the same request. -/
@[simp] theorem hostRequestOf_hostCommand (h : HostRequest) : hostRequestOf (hostCommand h) = some h := rfl

theorem hostRequestOf_eq_some {r : Request} {h : HostRequest} (hr : hostRequestOf r = some h) : r = hostCommand h := by
  obtain ⟨w, c, ch⟩ := r
  cases w <;> cases hr
  rfl

/-- The result is not latched: the last one returned is the one that stands. -/
@[simp] theorem State.reply_reply (s : State) (a b : Status) (u v : Option (List Byte)) :
    (s.reply a u).reply b v = s.reply b v := rfl

@[simp] theorem State.clearTransients_idem (s : State) : s.clearTransients.clearTransients = s.clearTransients := rfl

@[simp] theorem State.loadChunk_clearTransients (s : State) (ch : List Int) :
    (s.loadChunk ch).clearTransients = s.clearTransients := rfl

end Sys2Proof.Machine
end

