-- ==== Sys2Proof/Laws/Ops.lean ====
section
/-! SUPPORT. What each shared operation can do: the byte spaces, elements and bytes, the sequencing of stages. -/

namespace Sys2Proof.Machine

/-! ### The byte spaces -/

@[simp] theorem memWrite_nil {α : Type} (v : List α) : memWrite [] 0 v = some v := by
  simp [memWrite]

/-- A write at the end of a space appends. -/
theorem memWrite_end {α : Type} (sp v : List α) (i : Nat) (h : i = sp.length) :
    memWrite sp i v = some (sp ++ v) := by
  subst h; simp [memWrite]

@[simp] theorem memRead_all {α : Type} (sp : List α) : memRead sp 0 sp.length = some sp := by
  simp [memRead]

/-- A read answers exactly inside the space (20_memory.md R52). -/
theorem memRead_isSome {α : Type} (sp : List α) (i n : Nat) :
    (memRead sp i n).isSome = true ↔ i + n ≤ sp.length := by
  unfold memRead; split <;> simp [*]

/-- A read of one element is that element. -/
theorem memRead_one {α : Type} (pre post : List α) (x : α) :
    memRead (pre ++ x :: post) pre.length 1 = some [x] := by
  simp [memRead]

/-- A write of one element in place. -/
theorem memWrite_one {α : Type} (pre post : List α) (x y : α) :
    memWrite (pre ++ x :: post) pre.length [y] = some (pre ++ y :: post) := by
  simp [memWrite]

/-- A write never touches an index outside the written range. -/
theorem memWrite_frame {α : Type} {sp v sp' : List α} {i : Nat} (h : memWrite sp i v = some sp') (j : Nat)
    (hj : j < i ∨ i + v.length ≤ j) : sp'[j]? = sp[j]? := by
  unfold memWrite at h
  split at h
  · next hi =>
    cases h
    rcases hj with hj | hj
    · rw [List.getElem?_append_left (by simp; omega), List.getElem?_append_left (by simp; omega),
        List.getElem?_take_of_lt hj]
    · rw [List.getElem?_append_right (by simp; omega), List.getElem?_drop]
      congr 1; simp; omega
  · cases h

/-! ### Elements and bytes -/

theorem isByte_iff (x : Int) : IsByte x ↔ 0 ≤ x ∧ x < 256 := by
  simp [IsByte, FitsBits]

theorem isByte_elemOf (b : Byte) : IsByte (elemOf b) := by
  have := b.isLt
  simp only [IsByte, FitsBits, elemOf]; omega

@[simp] theorem ofInt_elemOf (b : Byte) : BitVec.ofInt 8 (elemOf b) = b := by
  simp [elemOf]

@[simp] theorem byteOf_elemOf (b : Byte) : byteOf (elemOf b) = some b := by
  rw [byteOf, if_pos (isByte_elemOf b), ofInt_elemOf]

/-- An integer in 0 to 255 is the byte of that value. -/
theorem elemOf_ofInt {x : Int} (h : IsByte x) : elemOf (BitVec.ofInt 8 x) = x := by
  obtain ⟨h0, h1⟩ := h
  simp only [elemOf, BitVec.toNat_ofInt]
  omega

theorem byteOf_eq_some {x : Int} {b : Byte} : byteOf x = some b ↔ x = elemOf b := by
  constructor
  · intro h
    unfold byteOf at h
    split at h
    · next hx => cases h; exact (elemOf_ofInt hx).symm
    · cases h
  · rintro rfl; simp

theorem byteOf_eq_none {x : Int} : byteOf x = none ↔ ¬ IsByte x := by
  unfold byteOf
  split
  · next h => simpa using (isByte_iff x).1 h
  · next h => simpa using h

@[simp] theorem bytesOf_map (bs : List Byte) : bytesOf (bs.map elemOf) = some bs := by
  induction bs with
  | nil => rfl
  | cons b bs ih => simp [bytesOf, ih]

theorem bytesOf_eq_some {xs : List Int} {bs : List Byte} : bytesOf xs = some bs ↔ xs = bs.map elemOf := by
  constructor
  · intro h
    induction xs generalizing bs with
    | nil => simp [bytesOf] at h; simp [← h]
    | cons x xs ih =>
      unfold bytesOf at h
      split at h
      · next b bs' hb hbs => cases h; simp [byteOf_eq_some.1 hb, ih hbs]
      · cases h
  · rintro rfl; simp

/-- A sequence of elements is a sequence of bytes exactly if every element is a byte. -/
theorem bytesOf_eq_none {xs : List Int} : bytesOf xs = none ↔ ∃ x ∈ xs, ¬ IsByte x := by
  induction xs with
  | nil => simp [bytesOf]
  | cons x xs ih =>
    unfold bytesOf
    cases hb : byteOf x with
    | none => simpa using Or.inl (byteOf_eq_none.1 hb)
    | some b =>
      have hx : IsByte x := by rw [byteOf_eq_some.1 hb]; exact isByte_elemOf b
      cases hbs : bytesOf xs with
      | none => simpa using Or.inr (ih.1 hbs)
      | some bs =>
        have : ¬ ∃ y ∈ xs, ¬ IsByte y := fun h => by simp [ih.2 h] at hbs
        simp only [List.mem_cons, reduceCtorEq, false_iff]
        rintro ⟨y, rfl | hy, hn⟩
        · exact hn hx
        · exact this ⟨y, hy, hn⟩

/-- Byte elements are the elements of a byte sequence. -/
theorem exists_bytes {xs : List Int} (h : ∀ x ∈ xs, IsByte x) : ∃ bs : List Byte, xs = bs.map elemOf := by
  cases hb : bytesOf xs with
  | none => obtain ⟨x, hx, hn⟩ := bytesOf_eq_none.1 hb; exact absurd (h x hx) hn
  | some bs => exact ⟨bs, bytesOf_eq_some.1 hb⟩

/-! ### Sequencing -/

@[simp] theorem andThen_done (s : State) (k : State → StageOut) : (StageOut.done s).andThen k = k s := rfl
@[simp] theorem andThen_raised (e : Status) (s : State) (k : State → StageOut) :
    (StageOut.raised e s).andThen k = .raised e s := rfl
@[simp] theorem andThen_stopped (f : Fault) (k : State → StageOut) :
    (StageOut.stopped f).andThen k = .stopped f := rfl

theorem withCfg_some {s : State} {c : Cfg} (h : s.cfg = some c) (k : Cfg → StageOut) : withCfg s k = k c := by
  simp [withCfg, h]

theorem withSeq_some {s : State} {v : Word16} (h : s.seq = some v) (k : Word16 → StageOut) :
    withSeq s k = k v := by
  simp [withSeq, h]

theorem withCfg_none {s : State} (h : s.cfg = none) (k : Cfg → StageOut) :
    withCfg s k = .stopped .noValue := by
  simp [withCfg, h]

theorem withSeq_none {s : State} (h : s.seq = none) (k : Word16 → StageOut) :
    withSeq s k = .stopped .noValue := by
  simp [withSeq, h]

@[simp] theorem withSpace_some {α : Type} (v : List α) (k : List α → StageOut) :
    withSpace (some v) k = k v := rfl

@[simp] theorem runStage_done (s : State) : runStage (.done s) = .next s := rfl
@[simp] theorem runStage_raised (e : Status) (s : State) :
    runStage (.raised e s) = .next (s.reply e none) := rfl
@[simp] theorem runStage_stopped (f : Fault) : runStage (.stopped f) = .fault f := rfl

end Sys2Proof.Machine
end

