-- ==== Sys2Proof/Laws/Stages.lean ====
section
/-! SUPPORT. What each stage operation does, and all that it can do. -/

namespace Sys2Proof.Machine

/-! ### Frame Assembler -/

theorem oversized_iff (n : Nat) : oversized n = true ↔ 255 < n := by
  unfold oversized
  rw [decide_eq_true_eq]
  exact Iff.rfl

theorem packHdr_length (f : Byte) (v : Word16) (n : Nat) :
    (packHdr Config.lenWidth f v n).length = Config.hdrLen := rfl

/-- SEQ_READ with a value in SEQ: what follows goes on with it. -/
theorem readSeq_some {s : State} {v : Word16} (h : s.seq = some v) (k : Word16 → State → StageOut) :
    readSeq s k = k v { s with seqVal := some v } :=
  withSeq_some h _

/-- SEQ_READ without a value in SEQ (93_implementation_defined.md U17). -/
theorem readSeq_none {s : State} (h : s.seq = none) (k : Word16 → State → StageOut) :
    readSeq s k = .stopped .noValue :=
  withSeq_none h _

/-- ASSEMBLE refuses an oversized chunk before anything is read or written (40_frame_assembler.md R125). -/
theorem assembleStage_oversized {s : State} (h : 255 < s.inp.length) :
    assembleStage s = .raised .oversizedPayload s := by
  simp [assembleStage, (oversized_iff _).2 h, raise]

/-- ASSEMBLE of a legal chunk: header and payload in FRAME, the counter stepped once (40_frame_assembler.md R123). -/
theorem assembleStage_legal {s : State} {c : Cfg} {v : Word16} (hn : s.inp.length ≤ 255) (hc : s.cfg = some c)
    (hv : s.seq = some v) :
    assembleStage s = .done { s with
      frame := frameElems c v s.inp
      seq := some (v + 1)
      seqVal := none } := by
  have ho : oversized s.inp.length = false := by
    rw [Bool.eq_false_iff]; intro h; exact absurd ((oversized_iff _).1 h) (by omega)
  have hw : memWrite ((packHdr Config.lenWidth c.flags v s.inp.length).map elemOf) Config.hdrLen s.inp =
      some ((packHdr Config.lenWidth c.flags v s.inp.length).map elemOf ++ s.inp) :=
    memWrite_end _ _ _ (by simp [packHdr_length])
  simp [assembleStage, ho, readSeq_some hv, withSeq, hv, writeFrame, withCfg, hc, hw, seqIncStage, frameElems]

/-- Without a value in SEQ or in CFG a legal chunk stops ASSEMBLE (60_exceptions.md R277). -/
theorem assembleStage_noValue {s : State} (hn : s.inp.length ≤ 255) (h : s.cfg = none ∨ s.seq = none) :
    assembleStage s = .stopped .noValue := by
  have ho : oversized s.inp.length = false := by
    rw [Bool.eq_false_iff]; intro h; exact absurd ((oversized_iff _).1 h) (by omega)
  cases hv : s.seq with
  | none => simp [assembleStage, ho, readSeq_none hv]
  | some v =>
    rcases h with h | h
    · simp [assembleStage, ho, readSeq_some hv, writeFrame, withCfg, h]
    · simp [hv] at h

/-! ### Whitener -/

/-- `b` further shifts after `a`. -/
theorem lfsrShifts_add (a b : Nat) (w : Lfsr) : lfsrShifts (a + b) w = lfsrShifts b (lfsrShifts a w) := by
  induction a generalizing w with
  | zero => simp [lfsrShifts]
  | succ a ih => rw [Nat.succ_add]; exact ih _

/-- The key bytes of a register that has been shifted for `i` bytes. -/
theorem lfsrKey_shift (i : Nat) :
    lfsrKey (lfsrShifts (Config.shiftsPerByte * i) Config.lfsrSeed) = keyByte i := rfl

theorem xorElem_elemOf (b k : Byte) : xorElem (elemOf b) k = elemOf (b ^^^ k) := by
  have := b.isLt
  have h : elemOf b / 256 = 0 := by simp only [elemOf]; omega
  unfold xorElem
  rw [h, ofInt_elemOf]
  simp [elemOf]

/-- XOR with a key byte neither makes a byte of an element nor the reverse. -/
theorem isByte_xorElem (x : Int) (k : Byte) : IsByte (xorElem x k) ↔ IsByte x := by
  have := (BitVec.ofInt 8 x ^^^ k).isLt
  simp only [IsByte, FitsBits, xorElem]
  omega

/-- XOR with the same key byte twice is the identity. -/
theorem xorElem_xorElem (x : Int) (k : Byte) : xorElem (xorElem x k) k = x := by
  have h1 := (BitVec.ofInt 8 x ^^^ k).isLt
  have hd : xorElem x k / 256 = x / 256 := by simp only [xorElem]; omega
  have hm : BitVec.ofInt 8 (xorElem x k) = BitVec.ofInt 8 x ^^^ k := by
    apply BitVec.eq_of_toNat_eq
    simp only [xorElem, BitVec.toNat_ofInt]
    generalize (BitVec.ofInt 8 x ^^^ k).toNat = m at h1
    omega
  unfold xorElem at hd hm ⊢
  rw [hd, hm, BitVec.xor_assoc, BitVec.xor_self, BitVec.xor_zero]
  simp only [BitVec.toNat_ofInt]
  omega

theorem whitenWith_map (key : Nat → Byte) (bs : List Byte) :
    whitenWith key (bs.map elemOf) = (xorBytes key bs).map elemOf := by
  induction bs generalizing key with
  | nil => rfl
  | cons b bs ih => simp [whitenWith, xorBytes, xorElem_elemOf, ih]

/-- Elements that are bytes whiten to the bytes XORed with the key. -/
theorem whitenSeq_map (bs : List Byte) : whitenSeq (bs.map elemOf) = (xorBytes keyByte bs).map elemOf :=
  whitenWith_map _ _

theorem whitenWith_isByte (key : Nat → Byte) (xs : List Int) :
    (∀ x ∈ whitenWith key xs, IsByte x) ↔ ∀ x ∈ xs, IsByte x := by
  induction xs generalizing key with
  | nil => simp [whitenWith]
  | cons x xs ih => simp only [whitenWith, List.forall_mem_cons, isByte_xorElem, ih]

/-- The loop of WHITEN from index `pre.length`, with W shifted for that many bytes. -/
theorem whitenBytes_eq (pre xs : List Int) (s : State) (key : Nat → Byte)
    (hk : ∀ j, key j = keyByte (pre.length + j)) (hf : s.frame = pre ++ xs) :
    whitenBytes xs.length pre.length (lfsrShifts (Config.shiftsPerByte * pre.length) Config.lfsrSeed) s =
      .done { s with
        frame := pre ++ whitenWith key xs
        w := some (lfsrShifts (Config.shiftsPerByte * (pre.length + xs.length)) Config.lfsrSeed) } := by
  induction xs generalizing pre s key with
  | nil => simp [whitenBytes, whitenWith, ← hf]
  | cons x xs ih =>
    have h0 : key 0 = keyByte pre.length := by simpa using hk 0
    simp only [List.length_cons, whitenBytes, whitenByte, hf, memRead_one, withSpace_some, List.map_cons,
      List.map_nil, memWrite_one, lfsrKey_shift, andThen_done, ← lfsrShifts_add]
    have hstep := ih (pre ++ [xorElem x (key 0)])
      { s with
        frame := pre ++ xorElem x (keyByte pre.length) :: xs
        w := some (lfsrShifts (Config.shiftsPerByte * pre.length) Config.lfsrSeed) }
      (fun i => key (i + 1)) (fun j => by rw [hk]; congr 1; simp; omega) (by simp [h0])
    simp only [List.length_append, List.length_cons, List.length_nil, Nat.zero_add, Nat.mul_add, Nat.mul_one] at hstep
    rw [hstep]
    simp [whitenWith, Nat.mul_add, Nat.add_assoc, Nat.add_comm Config.shiftsPerByte]

/-- WHITEN whitens the frame in place and leaves no W (41_whitener.md R146, 10_state.md R34). -/
theorem whitenStage_eq (s : State) :
    whitenStage s = .done { s with frame := whitenSeq s.frame, w := none } := by
  have h := whitenBytes_eq [] s.frame s keyByte (by simp) (by simp)
  simp only [List.length_nil, List.nil_append, Nat.mul_zero, lfsrShifts] at h
  rw [whitenStage, h]
  rfl

/-! ### FEC Encoder -/

/-- FEC_ENCODE of a frame of bytes (42_fec_encoder.md R164). -/
theorem fecEncodeStage_bytes {s : State} {bs : List Byte} (h : s.frame = bs.map elemOf) :
    fecEncodeStage s = .done { s with enc := fecBytes bs } := by
  simp [fecEncodeStage, fecEncode, h]

/-- FEC_ENCODE of a frame with a non-byte element (42_fec_encoder.md R169). -/
theorem fecEncodeStage_nonByte {s : State} (h : ∃ x ∈ s.frame, ¬ IsByte x) :
    fecEncodeStage s = .raised .invalidEncoderInput s := by
  simp [fecEncodeStage, fecEncode, bytesOf_eq_none.2 h, raise]

/-- The bypass of a frame of bytes (42_fec_encoder.md R162). -/
theorem fecBypassStage_bytes {s : State} {bs : List Byte} (h : s.frame = bs.map elemOf) :
    fecBypassStage s = .done { s with enc := bs } := by
  simp [fecBypassStage, h]

/-- The bypass of a frame with a non-byte element (60_exceptions.md R263, U27). -/
theorem fecBypassStage_nonByte {s : State} (h : ∃ x ∈ s.frame, ¬ IsByte x) :
    fecBypassStage s = .stopped .nonByte := by
  simp [fecBypassStage, bytesOf_eq_none.2 h]

/-! ### Preamble/Sync Inserter -/

/-- PREPEND (43_preamble_sync.md R181). -/
theorem prependStage_eq {s : State} {c : Cfg} (h : s.cfg = some c) :
    prependStage s = .done { s with out := linkPrefix c ++ s.enc } := by
  simp [prependStage, withCfg, h]

end Sys2Proof.Machine
end

