-- ==== Sys2Proof/Laws/Encode.lean ====
section
/-! SUPPORT. All that the stages of an ENCODE can do, case by case. -/

namespace Sys2Proof.Machine

theorem frameElems_bytes (c : Cfg) (v : Word16) (bs : List Byte) :
    frameElems c v (bs.map elemOf) = (frameBytes c v bs).map elemOf := by
  simp [frameElems, frameBytes]

theorem frameElems_nonByte {c : Cfg} {v : Word16} {xs : List Int} (h : ∃ x ∈ xs, ¬ IsByte x) :
    ∃ x ∈ frameElems c v xs, ¬ IsByte x := by
  obtain ⟨x, hx, hn⟩ := h
  exact ⟨x, by simp [frameElems, hx], hn⟩

theorem whitenSeq_nonByte {xs : List Int} (h : ∃ x ∈ xs, ¬ IsByte x) : ∃ x ∈ whitenSeq xs, ¬ IsByte x := by
  by_contra hc
  push Not at hc
  obtain ⟨x, hx, hn⟩ := h
  exact hn ((whitenWith_isByte keyByte xs).1 hc x hx)

/-- An oversized chunk: nothing is read or written (40_frame_assembler.md R125). -/
theorem encodeStages_oversized {s : State} (h : 255 < s.inp.length) :
    encodeStages s = .raised .oversizedPayload s := by
  simp [encodeStages, assembleStage_oversized h]

/-- A legal chunk of bytes: the whole transmit unit in OUT, the counter stepped once (44_pipeline_ops.md R203). -/
theorem encodeStages_bytes {s : State} {c : Cfg} {v : Word16} {bs : List Byte} (hi : s.inp = bs.map elemOf)
    (hn : bs.length ≤ 255) (hc : s.cfg = some c) (hv : s.seq = some v) (hw : s.w = none) :
    encodeStages s = .done { s with
      frame := (whitenedFrame c (frameBytes c v bs)).map elemOf
      enc := encodedFrame c (frameBytes c v bs)
      out := transmitUnit c v bs
      seq := some (v + 1)
      seqVal := none } := by
  have hl : s.inp.length ≤ 255 := by simpa [hi] using hn
  have hf : frameElems c v s.inp = (frameBytes c v bs).map elemOf := by rw [hi, frameElems_bytes]
  simp only [encodeStages, assembleStage_legal hl hc hv, hf, andThen_done]
  cases hwh : c.whitening <;> cases hfe : c.fec <;>
    simp [whitenStage_eq, whitenSeq_map, fecEncodeStage, fecBypassStage, fecEncode, prependStage, withCfg, hc, hw,
      hwh, hfe, whitenedFrame, encodedFrame, transmitUnit]

/-- A non-byte element with fec = 1: InvalidEncoderInput, the counter stepped (42_fec_encoder.md R169,
40_frame_assembler.md R127). -/
theorem encodeStages_nonByte_fec {s : State} {c : Cfg} {v : Word16} (hx : ∃ x ∈ s.inp, ¬ IsByte x)
    (hn : s.inp.length ≤ 255) (hc : s.cfg = some c) (hv : s.seq = some v) (hw : s.w = none) (hf : c.fec = true) :
    encodeStages s = .raised .invalidEncoderInput { s with
      frame := if c.whitening then whitenSeq (frameElems c v s.inp) else frameElems c v s.inp
      seq := some (v + 1)
      seqVal := none } := by
  have h1 := frameElems_nonByte (c := c) (v := v) hx
  have h2 := whitenSeq_nonByte h1
  simp only [encodeStages, assembleStage_legal hn hc hv, andThen_done, withCfg, hc]
  cases hwh : c.whitening
  · simp [hf, fecEncodeStage, fecEncode, raise, bytesOf_eq_none.2 h1]
  · simp [hf, whitenStage_eq, fecEncodeStage, fecEncode, raise, bytesOf_eq_none.2 h2, hw]

/-- A non-byte element with fec = 0: the model fault of 60_exceptions.md R263 and U27. -/
theorem encodeStages_nonByte_plain {s : State} {c : Cfg} {v : Word16} (hx : ∃ x ∈ s.inp, ¬ IsByte x)
    (hn : s.inp.length ≤ 255) (hc : s.cfg = some c) (hv : s.seq = some v) (hf : c.fec = false) :
    encodeStages s = .stopped .nonByte := by
  have h1 := frameElems_nonByte (c := c) (v := v) hx
  have h2 := whitenSeq_nonByte h1
  simp only [encodeStages, assembleStage_legal hn hc hv, andThen_done, withCfg, hc]
  cases hwh : c.whitening
  · simp [hf, fecBypassStage, bytesOf_eq_none.2 h1]
  · simp [hf, whitenStage_eq, fecBypassStage, bytesOf_eq_none.2 h2]

/-- A legal chunk while CFG or SEQ holds no value (60_exceptions.md R277). -/
theorem encodeStages_noValue {s : State} (hn : s.inp.length ≤ 255) (h : s.cfg = none ∨ s.seq = none) :
    encodeStages s = .stopped .noValue := by
  simp [encodeStages, assembleStage_noValue hn h]

/-- All that the stages can answer when CFG and SEQ hold a value: the four cases above. -/
theorem encodeStages_cases {s : State} {c : Cfg} {v : Word16} (hc : s.cfg = some c) (hv : s.seq = some v)
    (hw : s.w = none) :
    (255 < s.inp.length ∧ encodeStages s = .raised .oversizedPayload s) ∨
    (∃ bs : List Byte, s.inp = bs.map elemOf ∧ bs.length ≤ 255 ∧ encodeStages s = .done { s with
      frame := (whitenedFrame c (frameBytes c v bs)).map elemOf
      enc := encodedFrame c (frameBytes c v bs)
      out := transmitUnit c v bs
      seq := some (v + 1)
      seqVal := none }) ∨
    (s.inp.length ≤ 255 ∧ c.fec = true ∧ (∃ x ∈ s.inp, ¬ IsByte x) ∧
      encodeStages s = .raised .invalidEncoderInput { s with
        frame := if c.whitening then whitenSeq (frameElems c v s.inp) else frameElems c v s.inp
        seq := some (v + 1)
        seqVal := none }) ∨
    (s.inp.length ≤ 255 ∧ c.fec = false ∧ (∃ x ∈ s.inp, ¬ IsByte x) ∧ encodeStages s = .stopped .nonByte) := by
  by_cases hl : 255 < s.inp.length
  · exact .inl ⟨hl, encodeStages_oversized hl⟩
  have hn : s.inp.length ≤ 255 := by omega
  cases hb : bytesOf s.inp with
  | some bs =>
    have hi := bytesOf_eq_some.1 hb
    have hbl : bs.length ≤ 255 := by simpa [hi] using hn
    exact .inr (.inl ⟨bs, hi, hbl, encodeStages_bytes hi hbl hc hv hw⟩)
  | none =>
    have hx := bytesOf_eq_none.1 hb
    cases hf : c.fec with
    | true => exact .inr (.inr (.inl ⟨hn, rfl, hx, encodeStages_nonByte_fec hx hn hc hv hw hf⟩))
    | false => exact .inr (.inr (.inr ⟨hn, rfl, hx, encodeStages_nonByte_plain hx hn hc hv hf⟩))

/-- The two bytes of a 16-bit value, joined again (30_encoding.md R87). -/
theorem highLow_append (v : Word16) : v.extractLsb' 8 8 ++ v.extractLsb' 0 8 = v := by
  apply BitVec.eq_of_getLsbD_eq
  intro i hi
  rw [BitVec.getLsbD_append]
  by_cases h : i < 8
  · simp [h]
  · simp [h, show i - 8 < 8 by omega, show 8 + (i - 8) = i by omega]

/-- The framing alone is invertible (45_properties.md R250). -/
theorem unframe_frameBytes (c : Cfg) (v : Word16) {bs : List Byte} (h : bs.length ≤ 255) :
    unframe (frameBytes c v bs) = some (c.flags, v, bs) := by
  have hn : bs.length = (BitVec.ofNat 8 bs.length).toNat := by
    rw [BitVec.toNat_ofNat]
    omega
  simp only [frameBytes, packHdr, lowFirst, lengthField, Config.lenWidth, List.cons_append, List.nil_append, unframe]
  rw [if_pos hn, highLow_append]
end Sys2Proof.Machine
end

