-- ==== Sys2Proof/Laws/HostOps.lean ====
section
/-! SUPPORT. All that the host operations can answer, each said once. -/

namespace Sys2Proof.Machine

theorem State.life_cases (s : State) : s.life = .unconfigured ∨ s.life = .configured := by
  cases s.life <;> simp

/-! ### CONSTRUCT -/

theorem execConstruct_configured {s : State} (c : CfgFields) (h : s.life = .configured) :
    execConstruct c s = .next (s.reply .protocolError none) := by
  unfold execConstruct; rw [h]; rfl

theorem execConstruct_invalid {s : State} {c : CfgFields} (h : s.life = .unconfigured) (hv : validCfg c = false) :
    execConstruct c s = .next (s.reply .invalidConfiguration none) := by
  unfold execConstruct constructError; rw [h]; simp [hv]

theorem execConstruct_valid {s : State} {c : CfgFields} (h : s.life = .unconfigured) (hv : validCfg c = true) :
    execConstruct c s =
      .next ((s.configure (cfgOf c) (seqSeed (cfgOf c).seqByte0 (cfgOf c).seqByte1)).reply .ok none) := by
  unfold execConstruct constructError; rw [h]; simp [hv]

/-- CONSTRUCT always answers a next state, in one of three ways (44_pipeline_ops.md R198, 60_exceptions.md R268). -/
theorem execConstruct_cases (c : CfgFields) (s : State) :
    (s.life = .configured ∧ execConstruct c s = .next (s.reply .protocolError none)) ∨
    (s.life = .unconfigured ∧ validCfg c = false ∧
      execConstruct c s = .next (s.reply .invalidConfiguration none)) ∨
    (s.life = .unconfigured ∧ validCfg c = true ∧ execConstruct c s =
      .next ((s.configure (cfgOf c) (seqSeed (cfgOf c).seqByte0 (cfgOf c).seqByte1)).reply .ok none)) := by
  cases hl : s.life with
  | configured => exact .inl ⟨rfl, execConstruct_configured c hl⟩
  | unconfigured =>
    cases hv : validCfg c with
    | false => exact .inr (.inl ⟨rfl, rfl, execConstruct_invalid hl hv⟩)
    | true => exact .inr (.inr ⟨rfl, rfl, execConstruct_valid hl hv⟩)

/-! ### ENCODE -/

theorem execEncode_unconfigured {s : State} (ch : List Int) (h : s.life = .unconfigured) :
    execEncode ch s = .next (s.reply .protocolError none) := by
  unfold execEncode; rw [h]

theorem execEncode_configured {s : State} (ch : List Int) (h : s.life = .configured) :
    execEncode ch s = finishEncode (encodeStages (s.loadChunk ch)) := by
  unfold execEncode; rw [h]

/-- An oversized chunk (40_frame_assembler.md R125). -/
theorem execEncode_oversized {s : State} {ch : List Int} (h : s.life = .configured) (hn : 255 < ch.length) :
    execEncode ch s = .next (s.endEncode .oversizedPayload none) := by
  rw [execEncode_configured ch h, encodeStages_oversized (by simpa using hn)]
  rfl

/-- A legal chunk of bytes (44_pipeline_ops.md R203). -/
theorem execEncode_bytes {s : State} {c : Cfg} {v : Word16} {bs : List Byte} (h : s.life = .configured)
    (hc : s.cfg = some c) (hv : s.seq = some v) (hn : bs.length ≤ 255) :
    execEncode (bs.map elemOf) s =
      .next (({ s with seq := some (v + 1) } : State).endEncode .ok (some (transmitUnit c v bs))) := by
  rw [execEncode_configured _ h, encodeStages_bytes (c := c) (v := v) (bs := bs) (by simp) hn (by simp [hc])
    (by simp [hv]) (by simp)]
  rfl

/-- A non-byte element with fec = 1 (60_exceptions.md R263). -/
theorem execEncode_nonByte_fec {s : State} {c : Cfg} {v : Word16} {ch : List Int} (h : s.life = .configured)
    (hc : s.cfg = some c) (hv : s.seq = some v) (hn : ch.length ≤ 255) (hx : ∃ x ∈ ch, ¬ IsByte x)
    (hf : c.fec = true) :
    execEncode ch s = .next (({ s with seq := some (v + 1) } : State).endEncode .invalidEncoderInput none) := by
  rw [execEncode_configured _ h, encodeStages_nonByte_fec (c := c) (v := v) (by simpa using hx) (by simpa using hn)
    (by simp [hc]) (by simp [hv]) (by simp) hf]
  rfl

/-- A non-byte element with fec = 0 (93_implementation_defined.md U27). -/
theorem execEncode_nonByte_plain {s : State} {c : Cfg} {v : Word16} {ch : List Int} (h : s.life = .configured)
    (hc : s.cfg = some c) (hv : s.seq = some v) (hn : ch.length ≤ 255) (hx : ∃ x ∈ ch, ¬ IsByte x)
    (hf : c.fec = false) : execEncode ch s = .fault .nonByte := by
  rw [execEncode_configured _ h, encodeStages_nonByte_plain (c := c) (v := v) (by simpa using hx) (by simpa using hn)
    (by simp [hc]) (by simp [hv]) hf]
  rfl

/-- A legal chunk while CFG or SEQ holds no value (60_exceptions.md R277). -/
theorem execEncode_noValue {s : State} {ch : List Int} (h : s.life = .configured) (hn : ch.length ≤ 255)
    (hx : s.cfg = none ∨ s.seq = none) : execEncode ch s = .fault .noValue := by
  rw [execEncode_configured _ h, encodeStages_noValue (by simpa using hn) (by simpa using hx)]
  rfl

/-- If an ENCODE answers a next state, then in one of four ways (44_pipeline_ops.md R205). -/
theorem execEncode_next {s t : State} {ch : List Int} (h : execEncode ch s = .next t) :
    (s.life = .unconfigured ∧ t = s.reply .protocolError none) ∨
    (s.life = .configured ∧ 255 < ch.length ∧ t = s.endEncode .oversizedPayload none) ∨
    (∃ c v bs, s.life = .configured ∧ s.cfg = some c ∧ s.seq = some v ∧ ch = bs.map elemOf ∧ bs.length ≤ 255 ∧
      t = ({ s with seq := some (v + 1) } : State).endEncode .ok (some (transmitUnit c v bs))) ∨
    (∃ c v, s.life = .configured ∧ s.cfg = some c ∧ s.seq = some v ∧ ch.length ≤ 255 ∧ c.fec = true ∧
      (∃ x ∈ ch, ¬ IsByte x) ∧
      t = ({ s with seq := some (v + 1) } : State).endEncode .invalidEncoderInput none) := by
  rcases s.life_cases with hl | hl
  · rw [execEncode_unconfigured ch hl] at h
    cases h
    exact .inl ⟨hl, rfl⟩
  by_cases hn : 255 < ch.length
  · rw [execEncode_oversized hl hn] at h
    cases h
    exact .inr (.inl ⟨hl, hn, rfl⟩)
  have hn : ch.length ≤ 255 := by omega
  rcases Option.eq_none_or_eq_some s.cfg with hc | ⟨c, hc⟩
  · rw [execEncode_noValue hl hn (.inl hc)] at h; cases h
  rcases Option.eq_none_or_eq_some s.seq with hv | ⟨v, hv⟩
  · rw [execEncode_noValue hl hn (.inr hv)] at h; cases h
  cases hb : bytesOf ch with
  | some bs =>
    obtain rfl := bytesOf_eq_some.1 hb
    have hbl : bs.length ≤ 255 := by simpa using hn
    rw [execEncode_bytes hl hc hv hbl] at h
    cases h
    exact .inr (.inr (.inl ⟨c, v, bs, hl, hc, hv, rfl, hbl, rfl⟩))
  | none =>
    have hx := bytesOf_eq_none.1 hb
    cases hf : c.fec with
    | false => rw [execEncode_nonByte_plain hl hc hv hn hx hf] at h; cases h
    | true =>
      rw [execEncode_nonByte_fec hl hc hv hn hx hf] at h
      cases h
      exact .inr (.inr (.inr ⟨c, v, hl, hc, hv, hn, hf, hx, rfl⟩))

end Sys2Proof.Machine
end

