-- ==== Sys2Proof/Laws/Frames.lean ====
section
/-! SUPPORT. What no stage operation writes, and what an operation that answers a next state can have done to the
counter, to W and to the fields outside. -/

namespace Sys2Proof.Machine

/-- The fields no stage operation or transform mode writes are the same in both states. -/
structure SameOutside (s t : State) : Prop where
  life : t.life = s.life
  cfg : t.cfg = s.cfg
  inp : t.inp = s.inp
  port : t.port = s.port
  requests : t.requests = s.requests
  edges : t.edges = s.edges
  placed : t.placed = s.placed
  seq : t.seq = s.seq ∨ ∃ v, s.seq = some v ∧ t.seq = some (v + 1)

theorem SameOutside.rfl {s : State} : SameOutside s s :=
  ⟨Eq.refl _, Eq.refl _, Eq.refl _, Eq.refl _, Eq.refl _, Eq.refl _, Eq.refl _, .inl (Eq.refl _)⟩

/-- Whatever the outcome of a stage is, it keeps the fields outside. -/
def StageKeeps (s : State) : StageOut → Prop
  | .done t => SameOutside s t
  | .raised _ t => SameOutside s t
  | .stopped _ => True

theorem assembleStage_keeps (s : State) : StageKeeps s (assembleStage s) := by
  by_cases hn : s.inp.length ≤ 255
  swap
  · rw [assembleStage_oversized (by omega)]; exact SameOutside.rfl
  rcases Option.eq_none_or_eq_some s.cfg with hc | ⟨c, hc⟩
  · rw [assembleStage_noValue hn (.inl hc)]; trivial
  rcases Option.eq_none_or_eq_some s.seq with hv | ⟨v, hv⟩
  · rw [assembleStage_noValue hn (.inr hv)]; trivial
  · rw [assembleStage_legal hn hc hv]
    exact { SameOutside.rfl with seq := .inr ⟨v, hv, Eq.refl _⟩ }

theorem whitenStage_keeps (s : State) : StageKeeps s (whitenStage s) := by
  rw [whitenStage_eq]
  exact { SameOutside.rfl with }

theorem fecEncodeStage_keeps (s : State) : StageKeeps s (fecEncodeStage s) := by
  unfold fecEncodeStage
  split
  · rw [memWrite_nil, withSpace_some]; exact { SameOutside.rfl with }
  · exact SameOutside.rfl

theorem fecBypassStage_keeps (s : State) : StageKeeps s (fecBypassStage s) := by
  unfold fecBypassStage
  split
  · rw [memWrite_nil, withSpace_some]; exact { SameOutside.rfl with }
  · trivial

theorem prependStage_keeps (s : State) : StageKeeps s (prependStage s) := by
  rcases Option.eq_none_or_eq_some s.cfg with hc | ⟨c, hc⟩
  · rw [prependStage, withCfg_none hc]; trivial
  · rw [prependStage_eq hc]; exact { SameOutside.rfl with }

theorem seqReadStage_keeps (s : State) : StageKeeps s (seqReadStage s) := by
  rcases Option.eq_none_or_eq_some s.seq with hv | ⟨v, hv⟩
  · rw [seqReadStage, readSeq_none hv]; trivial
  · rw [seqReadStage, readSeq_some hv]; exact { SameOutside.rfl with }

theorem seqIncStage_keeps (s : State) : StageKeeps s (seqIncStage s) := by
  rcases Option.eq_none_or_eq_some s.seq with hv | ⟨v, hv⟩
  · rw [seqIncStage, withSeq_none hv]; trivial
  · rw [seqIncStage, withSeq_some hv]; exact { SameOutside.rfl with seq := .inr ⟨v, hv, Eq.refl _⟩ }

/-- A stage run after WHITEN keeps the fields outside if it keeps them by itself. -/
theorem keeps_after_whiten (s : State) {k : State → StageOut} (hk : ∀ t, StageKeeps t (k t)) :
    StageKeeps s ((whitenStage s).andThen k) := by
  rw [whitenStage_eq]
  have h := hk { s with frame := whitenSeq s.frame, w := none }
  cases hr : k { s with frame := whitenSeq s.frame, w := none } with
  | done t => rw [hr] at h; simp only [andThen_done, hr]; exact { h with }
  | raised e t => rw [hr] at h; simp only [andThen_done, hr]; exact { h with }
  | stopped f => simp only [andThen_done, hr]; trivial

/-- The stages of an ENCODE keep the fields outside, whatever their outcome, and step the counter at most once. -/
theorem encodeStages_keeps (s : State) : StageKeeps s (encodeStages s) := by
  by_cases hn : s.inp.length ≤ 255
  swap
  · rw [encodeStages_oversized (by omega)]; exact SameOutside.rfl
  rcases Option.eq_none_or_eq_some s.cfg with hc | ⟨c, hc⟩
  · rw [encodeStages_noValue hn (.inl hc)]; trivial
  rcases Option.eq_none_or_eq_some s.seq with hv | ⟨v, hv⟩
  · rw [encodeStages_noValue hn (.inr hv)]; trivial
  simp only [encodeStages, assembleStage_legal hn hc hv, andThen_done, withCfg, hc]
  cases c.whitening <;> cases c.fec <;>
    simp only [if_true, if_false, Bool.false_eq_true, whitenStage_eq, andThen_done, fecEncodeStage, fecBypassStage,
      raise] <;>
    split <;>
    simp only [memWrite_nil, withSpace_some, andThen_done, andThen_raised, andThen_stopped] <;>
    first
      | exact True.intro
      | exact ⟨Eq.refl _, hc.symm, Eq.refl _, Eq.refl _, Eq.refl _, Eq.refl _, Eq.refl _, .inr ⟨v, hv, Eq.refl _⟩⟩

/-- A stage operation or transform mode that answers a next state: all it can have done outside the transient
spaces. -/
theorem exec_stage_keeps {i : Instr} {s t : State} (hi : i.isHostOp = false) (h : exec i s = .next t) :
    SameOutside s t := by
  have key : ∀ r : StageOut, StageKeeps s r → runStage r = .next t → SameOutside s t := by
    intro r hr hn
    cases r with
    | done u => cases hn; exact hr
    | raised e u => cases hn; exact { hr with }
    | stopped f => cases hn
  cases i <;> simp only [Instr.isHostOp, Bool.true_eq_false] at hi
  · exact key _ (fecBypassStage_keeps s) h
  · exact key _ (keeps_after_whiten s fecBypassStage_keeps) h
  · exact key _ (fecEncodeStage_keeps s) h
  · exact key _ (keeps_after_whiten s fecEncodeStage_keeps) h
  · exact key _ (assembleStage_keeps s) h
  · exact key _ (whitenStage_keeps s) h
  · exact key _ (fecEncodeStage_keeps s) h
  · exact key _ (prependStage_keeps s) h
  · exact key _ (seqReadStage_keeps s) h
  · exact key _ (seqIncStage_keeps s) h

end Sys2Proof.Machine
end

