-- ==== Sys2Proof/Laws/PerInstr.lean ====
section
/-! SUPPORT. For all operations: the well-formed ones are those whose request the ports can carry, a packed
configuration word and a chunk of bytes (30_encoding.md R93, R94). -/

namespace Sys2Proof.Laws.OnPorts

/-- The operation is well formed exactly if its request holds a packed word and a chunk of bytes. -/
def Statement (i : Instr) : Prop :=
  i.wellFormed = true ↔ (∃ w : Cfgw, (encode i).cfg = .packed w) ∧ ∀ x ∈ (encode i).chunk, IsByte x

/-- An operation without operand is well formed, and its request holds the zero word and the empty chunk. -/
theorem of_plain {i : Instr} (hw : i.wellFormed = true) (hc : (encode i).cfg = .packed 0)
    (hk : (encode i).chunk = []) : Statement i :=
  ⟨fun _ => ⟨⟨0, hc⟩, by simp [hk]⟩, fun _ => hw⟩

theorem reset : Statement .reset := of_plain rfl rfl rfl
theorem nop : Statement .nop := of_plain rfl rfl rfl

theorem construct (c : CfgFields) : Statement (.construct c) := by
  simp only [Statement, Instr.wellFormed, encode, encodeCfg, decide_eq_true_eq, List.not_mem_nil, false_implies,
    implies_true, and_true]
  by_cases h : c.Fits
  · rw [if_pos h]; exact ⟨fun _ => ⟨_, rfl⟩, fun _ => h⟩
  · rw [if_neg h]
    constructor
    · exact fun h' => absurd h' h
    · rintro ⟨w, hw⟩; cases hw

theorem encode (chunk : List Int) : Statement (.encode chunk) := by
  simp only [Statement, Instr.wellFormed, Sys2Proof.encode, decide_eq_true_eq]
  exact ⟨fun h => ⟨⟨0, rfl⟩, h⟩, fun h => h.2⟩

theorem rsvd3 : Statement .rsvd3 := of_plain rfl rfl rfl
theorem xfIdentity : Statement .xfIdentity := of_plain rfl rfl rfl
theorem xfWhitened : Statement .xfWhitened := of_plain rfl rfl rfl
theorem xfFec : Statement .xfFec := of_plain rfl rfl rfl
theorem xfBoth : Statement .xfBoth := of_plain rfl rfl rfl
theorem assemble : Statement .assemble := of_plain rfl rfl rfl
theorem whiten : Statement .whiten := of_plain rfl rfl rfl
theorem fecEncode : Statement .fecEncode := of_plain rfl rfl rfl
theorem prepend : Statement .prepend := of_plain rfl rfl rfl
theorem seqRead : Statement .seqRead := of_plain rfl rfl rfl
theorem seqInc : Statement .seqInc := of_plain rfl rfl rfl

end Sys2Proof.Laws.OnPorts
end

