-- ==== Sys2Proof/Laws/Ports.lean ====
section
/-! SUPPORT. Laws of the beat-level protocol: runs of clock edges one after another, and that every chunk and every
unit has input and output phases. -/

namespace Sys2Proof.Machine

/-- Showing a status changes the progress on the ports and nothing else. -/
theorem showStatus_next {r : Host.Outcome State Fault Refusal} {t : State} (h : showStatus r = .next t) :
    ∃ s p, r = .next s ∧ t = s.setPort p ∧ (p = .idle ∨ ∃ c, p = .status c) := by
  unfold showStatus at h
  split at h
  case h_1 s =>
    split at h <;> cases h
    · exact ⟨s, _, rfl, rfl, .inr ⟨_, rfl⟩⟩
    · exact ⟨s, _, rfl, rfl, .inl rfl⟩
  all_goals cases h

/-- A run of clock edges is its first edge, then the rest. -/
theorem runEdges_cons {p : Pins} {s t : State} (ps : List Pins) (h : clockEdge p s = .next t) :
    runEdges (p :: ps) s = runEdges ps t ∧
    edgeOutput (p :: ps) s = (outBeat p s).toList ++ edgeOutput ps t ∧
    edgeStatus (p :: ps) s = (outPins s).st.toList ++ edgeStatus ps t := by
  simp [runEdges, edgeOutput, edgeStatus, h]

/-- Two runs of clock edges one after another. -/
theorem runEdges_append (ps qs : List Pins) {s t : State} (h : runEdges ps s = .next t) :
    runEdges (ps ++ qs) s = runEdges qs t ∧
    edgeOutput (ps ++ qs) s = edgeOutput ps s ++ edgeOutput qs t ∧
    edgeStatus (ps ++ qs) s = edgeStatus ps s ++ edgeStatus qs t := by
  induction ps generalizing s with
  | nil =>
    cases h
    simp [edgeOutput, edgeStatus]
  | cons p ps ih =>
    simp only [runEdges] at h
    split at h
    case h_1 u hu =>
      obtain ⟨hr, ho, hs⟩ := ih h
      simp [runEdges, edgeOutput, edgeStatus, hu, hr, ho, hs]
    all_goals cases h

/-- The input beats of a chunk, one a byte, carry that chunk (44_pipeline_ops.md R218). -/
theorem keptBytes_chunkPins (bs : List Byte) : keptBytes (chunkPins bs) = bs := by
  induction bs with
  | nil => rfl
  | cons b bs ih =>
    cases bs with
    | nil => rfl
    | cons c bs => exact congrArg (b :: ·) ih

/-- The input beats of a chunk, one a byte, are an input phase (44_pipeline_ops.md R218). -/
theorem isInputPhase_chunkPins (bs : List Byte) : isInputPhase (chunkPins bs) = true := by
  induction bs with
  | nil => rfl
  | cons b bs ih =>
    cases bs with
    | nil => rfl
    | cons c bs =>
      cases bs with
      | nil => rfl
      | cons d bs => exact ih

/-- An input phase has a last edge, at which the beat with in_last = 1 happens, and none before it. -/
theorem isInputPhase_cons (p q : Pins) (ps : List Pins) :
    isInputPhase (p :: q :: ps) = true ↔
      p.rst = false ∧ (p.inValid = true → p.inLast = false) ∧ isInputPhase (q :: ps) = true := by
  cases hr : p.rst <;> cases hv : p.inValid <;> cases hl : p.inLast <;> simp [isInputPhase, hr, hv, hl]

/-- As many ready edges as the unit has bytes are an output phase (44_pipeline_ops.md R220). -/
theorem isOutputPhase_replicate (n : Nat) : isOutputPhase (List.replicate n drainPins) n = true := by
  induction n with
  | zero => rfl
  | succ n ih =>
    rw [List.replicate_succ]
    exact ih

/-- An output phase of at least one byte, edge by edge. -/
theorem isOutputPhase_cons (p : Pins) (ps : List Pins) (n : Nat) :
    isOutputPhase (p :: ps) (n + 1) = true ↔
      p.rst = false ∧ isOutputPhase ps (if p.outReady then n else n + 1) = true := by
  simp [isOutputPhase]

end Sys2Proof.Machine
end

