-- ==== Sys2Proof/Laws/Step.lean ====
section
/-! SUPPORT. What a step can be, and what a HOST can make the block execute. -/

namespace Sys2Proof.Machine

/-- A command of a HOST is always one of the operations a HOST can ask for (44_pipeline_ops.md R195). -/
theorem decode_hostCommand (h : HostRequest) : ∃ i, decode (hostCommand h) = .ok i ∧ i.isHostOp = true := by
  refine ⟨_, rfl, ?_⟩
  unfold decodeCmd
  repeat' split
  all_goals rfl

/-- A request that is executed is the execution of the operation it decodes to. -/
theorem runRequest_ok {r : Request} {i : Instr} (s : State) (h : decode r = .ok i) : runRequest r s = exec i s := by
  simp [runRequest, h]

/-- A request that answers a next state decodes to an operation that answers it. -/
theorem runRequest_next {r : Request} {s t : State} (h : runRequest r s = .next t) :
    ∃ i, decode r = .ok i ∧ exec i s = .next t := by
  unfold runRequest at h
  split at h
  · exact ⟨_, ‹_›, h⟩
  · cases h

/-- Everything a step that answers a next state can be: an operation placed by itself, a command of the HOST, a clock
edge, or nothing at all. -/
theorem step_cases {s t : State} (h : step s = .next t) :
    (∃ r i, s.port = .idle ∧ s.placed = some r ∧ decode r = .ok i ∧ exec i { s with placed := none } = .next t) ∨
    (∃ c cs i, s.port = .idle ∧ s.placed = none ∧ s.requests = c :: cs ∧ decode (hostCommand c) = .ok i ∧
      i.isHostOp = true ∧ exec i { s with requests := cs } = .next t) ∨
    (∃ p ps, s.edges = p :: ps ∧ clockEdge p { s with edges := ps } = .next t) ∨
    (s.edges = [] ∧ t = s) := by
  have edge : nextEdge s = .next t → (∃ p ps, s.edges = p :: ps ∧ clockEdge p { s with edges := ps } = .next t) ∨
      (s.edges = [] ∧ t = s) := by
    intro h
    unfold nextEdge at h
    split at h
    · cases h
      exact .inr ⟨‹_›, rfl⟩
    · exact .inl ⟨_, _, ‹_›, h⟩
  rw [step, advance.eq_def] at h
  split at h
  case h_2 => exact .inr (.inr (edge h))
  split at h
  · obtain ⟨i, hi, ht⟩ := runRequest_next h
    exact .inl ⟨_, i, ‹_›, ‹_›, hi, ht⟩
  · unfold nextRequest at h
    split at h
    · exact .inr (.inr (edge h))
    · rename_i c cs hr
      obtain ⟨i, hi, ho⟩ := decode_hostCommand c
      rw [runRequest_ok _ hi] at h
      exact .inr (.inl ⟨c, cs, i, ‹_›, ‹_›, hr, hi, ho, h⟩)

end Sys2Proof.Machine
end

