-- ==== Sys2Proof/Machine/Programs.lean ====
section
/-! DEFINITION. Operation sequences: the pseudo-operations (30_encoding.md R108), the encoding of a program (R109)
and the textual syntax of operations and results (R107). They give no operation a new meaning. -/

namespace Sys2Proof.Machine

/-- RECONFIGURE: RESET, then CONSTRUCT (30_encoding.md R108, 70_reset_and_hazards.md R301). -/
def reconfigure (c : CfgFields) : List Instr := [.reset, .construct c]

/-- `ENCODE n*b`: ENCODE of `n` copies of a byte (30_encoding.md R108). -/
def encodeCopies (n : Nat) (b : Byte) : Instr := .encode (List.replicate n (elemOf b))

/-- The encoding of a program: its command words with their operands, in issue order (30_encoding.md R109). A program
consists of host operations (R107); a list with another operation has no encoding. -/
def programRequests : List Instr → Option (List HostRequest)
  | [] => some []
  | i :: is =>
    match hostRequestOf (encode i), programRequests is with
    | some h, some hs => some (h :: hs)
    | _, _ => none

/-- The HOST issues requests after those it has issued already (20_memory.md R68). -/
def State.issue (s : State) (hs : List HostRequest) : State := { s with requests := s.requests ++ hs }

/-- A hexadecimal digit. -/
def hexDigit (n : Nibble) : Char :=
  let k := n.toNat
  if k < 10 then Char.ofNat (48 + k) else Char.ofNat (55 + k)

/-- A byte in hexadecimal without `0x` (30_encoding.md R107). -/
def hexByte (b : Byte) : String := String.ofList [hexDigit (highNibble b), hexDigit (lowNibble b)]

/-- Bytes in hexadecimal, each after a blank. -/
def hexBytes : List Byte → String
  | [] => ""
  | b :: bs => " " ++ hexByte b ++ hexBytes bs

/-- The name of a status as the syntax writes it (30_encoding.md R100, R107). -/
def statusName : Status → String
  | .ok => "OK"
  | .invalidConfiguration => "InvalidConfiguration"
  | .oversizedPayload => "OversizedPayload"
  | .invalidEncoderInput => "InvalidEncoderInput"
  | .protocolError => "ProtocolError"

/-- A result as the syntax writes it (30_encoding.md R107). -/
def resultText (r : Result) : String :=
  match r.unit with
  | some u => "-> " ++ statusName r.status ++ ":" ++ hexBytes u
  | none => "-> " ++ statusName r.status

/-- A line of a program (30_encoding.md R107): the syntax has the five host operations only, chunks of bytes, and
the byte fields of CONSTRUCT in hexadecimal. -/
def operationText : Instr → Option String
  | .reset => some "RESET"
  | .nop => some "NOP"
  | .construct c =>
    let r := cfgOf c
    if validCfg c then
      some ("CONSTRUCT preamble_bytes=" ++ toString r.preambleBytes.toNat ++
        " sync_byte0=" ++ hexByte r.syncByte0 ++ " sync_byte1=" ++ hexByte r.syncByte1 ++
        " sync_words=" ++ toString r.syncWords.toNat ++ " flags=" ++ hexByte r.flags ++
        " fec=" ++ toString r.fec.toNat ++ " whitening=" ++ toString r.whitening.toNat ++
        " seq_byte0=" ++ hexByte r.seqByte0 ++ " seq_byte1=" ++ hexByte r.seqByte1)
    else none
  | .encode chunk =>
    match bytesOf chunk with
    | some bs => some ("ENCODE" ++ hexBytes bs)
    | none => none
  | .rsvd3 => some "RSVD3"
  | .xfIdentity => none
  | .xfWhitened => none
  | .xfFec => none
  | .xfBoth => none
  | .assemble => none
  | .whiten => none
  | .fecEncode => none
  | .prepend => none
  | .seqRead => none
  | .seqInc => none

end Sys2Proof.Machine
end

