-- ==== Sys2Proof/Tests/Slice0.lean ====
section
/-! SUPPORT. Tests. Expected values come from 95_test_vectors.md (V1 to V36, P1 to P5) or are written out from the
encoding tables of 30_encoding.md. The theorems named witness_… show, for each statement with hypotheses, concrete
values that meet all of them. -/

open Sys2Proof Sys2Proof.Machine

namespace Sys2Proof.Tests

/-! ### Helpers -/

/-- The nine fields of V24. -/
def fieldsV24 : CfgFields := ⟨4, 0x91, 0xD3, 2, 0xC0, 0, 0, 0x69, 0x22⟩

/-- The least values of the nine fields. -/
def fieldsMin : CfgFields := ⟨0, 0, 0, 0, 0, 0, 0, 0, 0⟩

/-- The greatest values of the nine fields. -/
def fieldsMax : CfgFields := ⟨65535, 255, 255, 65535, 255, 1, 1, 255, 255⟩

/-- The configuration of V24 with the two booleans of the mode. -/
def cfgV24 (fec whitening : Bool) : Cfg := ⟨4, 0x91, 0xD3, 2, 0xC0, fec, whitening, 0x69, 0x22⟩

/-- An instance at rest with a configuration and a counter. -/
def configured (c : Cfg) (v : Word16) : State :=
  { State.reset with life := .configured, cfg := some c, seq := some v }

/-- An instance whose FRAME holds `f`. -/
def withFrame (f : List Int) : State := { configured (cfgV24 false false) 0x2269 with frame := f }

/-- An instance whose IN holds `x`. -/
def withChunk (v : Word16) (x : List Int) : State := { configured (cfgV24 false false) v with inp := x }

/-- An instance whose ENC holds `e`, with a preamble count, two sync bytes and a sync count. -/
def withEnc (p : Word16) (b0 b1 : Byte) (n : Word16) (e : List Byte) : State :=
  { configured ⟨p, b0, b1, n, 0, false, false, 0, 0⟩ 0 with enc := e }

/-- What an outcome shows of its next state. -/
def look {α : Type} (f : State → α) : Host.Outcome State Fault Refusal → Option α
  | .next t => some (f t)
  | .fault _ => none
  | .refused _ => none

/-- The frame of V22 and its whitened form. -/
def frameV22 : List Int := [0xC0, 0x69, 0x22, 0x03, 0x01, 0x02, 0x03]

/-! ### WellFormed: one ill-formed term for each check, and the limits -/

theorem test_wf_preamble : (Instr.construct { fieldsV24 with preambleBytes := 65536 }).wellFormed = false := by decide
theorem test_wf_sync0 : (Instr.construct { fieldsV24 with syncByte0 := 256 }).wellFormed = false := by decide
theorem test_wf_sync1 : (Instr.construct { fieldsV24 with syncByte1 := -1 }).wellFormed = false := by decide
theorem test_wf_words : (Instr.construct { fieldsV24 with syncWords := 70000 }).wellFormed = false := by decide
theorem test_wf_flags : (Instr.construct { fieldsV24 with flags := 256 }).wellFormed = false := by decide
theorem test_wf_fec : (Instr.construct { fieldsV24 with fec := 2 }).wellFormed = false := by decide
theorem test_wf_whitening : (Instr.construct { fieldsV24 with whitening := -1 }).wellFormed = false := by decide
theorem test_wf_seq0 : (Instr.construct { fieldsV24 with seqByte0 := 256 }).wellFormed = false := by decide
theorem test_wf_seq1 : (Instr.construct { fieldsV24 with seqByte1 := 300 }).wellFormed = false := by decide
theorem test_wf_chunk : (Instr.encode [0, 256]).wellFormed = false := by decide
theorem test_wf_negative : (Instr.encode [-1]).wellFormed = false := by decide
theorem test_wf_limits : (Instr.construct fieldsMin).wellFormed = true ∧
    (Instr.construct fieldsMax).wellFormed = true ∧ (Instr.encode [0, 255]).wellFormed = true := by decide

/-! ### Decoding: words written out from 30_encoding.md R97 to R99, CFGW from V24 and P2 to P5 -/

theorem test_decode_reset : decode ⟨.cmd 0b100, .packed 0, []⟩ = .ok .reset ∧
    decode ⟨.cmd 0b101, .packed 0, []⟩ = .ok .reset ∧ decode ⟨.cmd 0b110, .packed 0, [1]⟩ = .ok .reset ∧
    decode ⟨.cmd 0b111, .packed 0, []⟩ = .ok .reset := by decide
theorem test_decode_nop : decode ⟨.cmd 0b000, .packed 0, []⟩ = .ok .nop := by decide
theorem test_decode_construct_v24 :
    decode ⟨.cmd 0b001, .packed 0x089A4C00002D3910004, []⟩ = .ok (.construct fieldsV24) := by decide
theorem test_decode_construct_p2 : decode ⟨.cmd 0b001, .packed 0x00003C00001D3910002, []⟩ =
    .ok (.construct ⟨2, 0x91, 0xD3, 1, 0xC0, 1, 1, 0, 0⟩) := by decide
theorem test_decode_construct_p3 : decode ⟨.cmd 0b001, .packed 0x3FFFC000001D3910001, []⟩ =
    .ok (.construct ⟨1, 0x91, 0xD3, 1, 0, 0, 0, 0xFF, 0xFF⟩) := by decide
theorem test_decode_construct_p4 : decode ⟨.cmd 0b001, .packed 0x003FAFF0000D3910000, []⟩ =
    .ok (.construct ⟨0, 0x91, 0xD3, 0, 0xFF, 0, 1, 0xFE, 0⟩) := by decide
theorem test_decode_construct_p5 : decode ⟨.cmd 0b001, .packed 0x048D15A000134120001, []⟩ =
    .ok (.construct ⟨1, 0x12, 0x34, 1, 0x5A, 1, 0, 0x34, 0x12⟩) := by decide
theorem test_encode_construct_p5 : encode (.construct ⟨1, 0x12, 0x34, 1, 0x5A, 1, 0, 0x34, 0x12⟩) =
    ⟨.cmd 0b001, .packed 0x048D15A000134120001, []⟩ := by decide
theorem test_decode_encode : decode ⟨.cmd 0b010, .packed 0, [1, 2, 3]⟩ = .ok (.encode [1, 2, 3]) := by decide
theorem test_decode_rsvd3 : decode ⟨.cmd 0b011, .packed 0, []⟩ = .ok .rsvd3 := by decide
theorem test_decode_xfIdentity : decode ⟨.mode 0b00, .packed 0, []⟩ = .ok .xfIdentity := by decide
theorem test_decode_xfWhitened : decode ⟨.mode 0b01, .packed 0, []⟩ = .ok .xfWhitened := by decide
theorem test_decode_xfFec : decode ⟨.mode 0b10, .packed 0, []⟩ = .ok .xfFec := by decide
theorem test_decode_xfBoth : decode ⟨.mode 0b11, .packed 0, []⟩ = .ok .xfBoth := by decide
theorem test_decode_assemble : decode ⟨.stage 0b0010, .packed 0, []⟩ = .ok .assemble := by decide
theorem test_decode_whiten : decode ⟨.stage 0b0100, .packed 0, []⟩ = .ok .whiten := by decide
theorem test_decode_fecEncode : decode ⟨.stage 0b0110, .packed 0, []⟩ = .ok .fecEncode := by decide
theorem test_decode_prepend : decode ⟨.stage 0b1000, .packed 0, []⟩ = .ok .prepend := by decide
theorem test_decode_seqRead : decode ⟨.stage 0b1010, .packed 0, []⟩ = .ok .seqRead := by decide
theorem test_decode_seqInc : decode ⟨.stage 0b1011, .packed 0, []⟩ = .ok .seqInc := by decide
theorem test_decode_unused : ∀ w : BitVec 4, w ∈ [0b0000#4, 0b0001#4, 0b0011#4, 0b0101#4, 0b0111#4, 0b1001#4,
    0b1100#4, 0b1101#4, 0b1110#4, 0b1111#4] → decode ⟨.stage w, .packed 0, []⟩ = .error (.unusedStage w) := by decide
/-- The table's own widths select the format; a width in whole bytes is read as CMD, then as STAGE (log entry 15). -/
theorem test_table_words : decodeTableWord 3 0b100 = some .reset ∧ decodeTableWord 2 0b01 = some .xfWhitened ∧
    decodeTableWord 4 0b0010 = some .assemble ∧ decodeTableWord 8 0b010 = some (.encode []) ∧
    decodeTableWord 8 0b1011 = some .seqInc ∧ decodeTableWord 4 0b1111 = none ∧ decodeTableWord 8 16 = none := by
  decide

/-! ### The operations, one step each -/

/-- V29: from CONFIGURED with SEQ = 0x1234. -/
theorem test_reset : look id (exec .reset (configured (cfgV24 true true) 0x1234)) =
    some { State.reset with result := some ⟨.ok, none⟩ } := by decide
/-- V30. -/
theorem test_nop : look id (exec .nop (configured (cfgV24 false false) 0x2269)) =
    some { configured (cfgV24 false false) 0x2269 with result := some ⟨.ok, none⟩ } := by decide
/-- V24. -/
theorem test_construct : look id (exec (.construct fieldsV24) State.reset) =
    some { configured (cfgV24 false false) 0x2269 with result := some ⟨.ok, none⟩ } := by decide
/-- V25 (flags = 256) and V27 (CONFIGURED with flags = 256). -/
theorem test_construct_refused :
    look id (exec (.construct { fieldsV24 with flags := 256 }) State.reset) =
      some { State.reset with result := some ⟨.invalidConfiguration, none⟩ } ∧
    look (·.result) (exec (.construct { fieldsV24 with flags := 256 }) (configured (cfgV24 false false) 0)) =
      some (some ⟨.protocolError, none⟩) := by decide
/-- V1, the first call. -/
theorem test_encode_plain : look id (exec (.encode [1, 2, 3]) (configured (cfgV24 false false) 0x2269)) =
    some { configured (cfgV24 false false) 0x226A with result := some ⟨.ok, some [0xAA, 0xAA, 0xAA, 0xAA,
      0x91, 0xD3, 0x91, 0xD3, 0xC0, 0x69, 0x22, 0x03, 0x01, 0x02, 0x03]⟩ } := by decide
/-- V28, the first line: the sequence number is consumed and nothing is output. -/
theorem test_encode_nonByte : look id (exec (.encode [1, 256]) (configured ⟨0, 0, 0, 0, 0, true, false, 0x10, 0⟩ 0x0010)) =
    some { configured ⟨0, 0, 0, 0, 0, true, false, 0x10, 0⟩ 0x0011 with
      result := some ⟨.invalidEncoderInput, none⟩ } := by decide
/-- V26: RSVD3 in both lifecycle states. -/
theorem test_rsvd3 :
    look id (exec .rsvd3 State.reset) = some { State.reset with result := some ⟨.protocolError, none⟩ } ∧
    look (·.seq) (exec .rsvd3 (configured (cfgV24 false false) 0x2269)) = some (some 0x2269) := by decide
/-- V22, the first row. -/
theorem test_xfIdentity : look (·.enc) (exec .xfIdentity (withFrame frameV22)) =
    some [0xC0, 0x69, 0x22, 0x03, 0x01, 0x02, 0x03] := by decide
/-- V22, the second row. -/
theorem test_xfWhitened : look (·.enc) (exec .xfWhitened (withFrame frameV22)) =
    some [0x3F, 0x88, 0x3F, 0x99, 0xEC, 0x87, 0x30] := by decide
/-- V22, the third row. -/
theorem test_xfFec : look (·.enc) (exec .xfFec (withFrame frameV22)) =
    some [0xC9, 0x00, 0x63, 0x9C, 0x2D, 0x2D, 0x00, 0x36, 0x00, 0x1B, 0x00, 0x2D, 0x00, 0x36] := by decide
/-- V22, the fourth row. -/
theorem test_xfBoth : look (·.enc) (exec .xfBoth (withFrame frameV22)) =
    some [0x36, 0xFF, 0x87, 0x87, 0x36, 0xFF, 0x9C, 0x9C, 0xE4, 0xC9, 0x87, 0x78, 0x36, 0x00] := by decide
/-- V7, the first row. -/
theorem test_assemble : look (fun t => (t.frame, t.seq)) (exec .assemble (withChunk 0x2269 [1, 2, 3])) =
    some ([0xC0, 0x69, 0x22, 0x03, 0x01, 0x02, 0x03], some 0x226A) := by decide
/-- V7, the third row: the counter wraps. -/
theorem test_assemble_wrap : look (fun t => (t.frame, t.seq)) (exec .assemble (withChunk 0xFFFF [0xAB])) =
    some ([0xC0, 0xFF, 0xFF, 0x01, 0xAB], some 0) := by decide
/-- V12, the seventh row. -/
theorem test_whiten : look (fun t => (t.frame, t.w)) (exec .whiten (withFrame frameV22)) =
    some ([0x3F, 0x88, 0x3F, 0x99, 0xEC, 0x87, 0x30], none) := by decide
/-- V12, the fifth row. -/
theorem test_whiten_pattern : look (·.frame) (exec .whiten (withFrame [0xAA, 0xAA, 0xAA, 0xAA, 0xAA, 0xAA])) =
    some [0x55, 0x4B, 0xB7, 0x30, 0x47, 0x2F] := by decide
/-- V15: 12 34 56 78 9A BC DE F0 visits all sixteen codewords. -/
theorem test_fecEncode : look (·.enc) (exec .fecEncode (withFrame [0x12, 0x34, 0x56, 0x78, 0x9A, 0xBC, 0xDE, 0xF0])) =
    some [0x1B, 0x2D, 0x36, 0x4E, 0x55, 0x63, 0x78, 0x87, 0x9C, 0xAA, 0xB1, 0xC9, 0xD2, 0xE4, 0xFF, 0x00] := by decide
/-- V18, the fifth row: sync_byte0 first, whatever the values. -/
theorem test_prepend : look (·.out) (exec .prepend (withEnc 1 0xD3 0x91 1 [0xC0, 0x69])) =
    some [0xAA, 0xD3, 0x91, 0xC0, 0x69] := by decide
/-- V19: nothing is escaped. -/
theorem test_prepend_verbatim : look (·.out) (exec .prepend (withEnc 1 0x91 0xD3 1 [0x91, 0xD3, 0xAA, 0x91, 0xD3])) =
    some [0xAA, 0x91, 0xD3, 0x91, 0xD3, 0xAA, 0x91, 0xD3] := by decide
/-- V3, V4: the value before the increment. -/
theorem test_seqRead : look (fun t => (t.seqVal, t.seq)) (exec .seqRead (configured (cfgV24 false false) 0x2269)) =
    some (some 0x2269, some 0x2269) := by decide
/-- V6: the wrap, and the carry into the high byte. -/
theorem test_seqInc : look (·.seq) (exec .seqInc (configured (cfgV24 false false) 0xFFFF)) = some (some 0) ∧
    look (·.seq) (exec .seqInc (configured (cfgV24 false false) 0x00FF)) = some (some 0x0100) := by decide
/-- V11: the register after single shifts and at the first frame bytes. -/
theorem test_register : (List.range 6).map (fun n => lfsrShifts n 0x1FF) = [0x1FF, 0x0FF, 0x07F, 0x03F, 0x01F, 0x10F] ∧
    lfsrShifts 8 0x1FF = 0x1E1 ∧ lfsrShifts 16 0x1FF = 0x01D ∧ lfsrShifts 24 0x1FF = 0x19A := by decide
/-- V5: HDR and HDR16. -/
theorem test_header : packHdr .w8 0xA5 0x8001 128 = [0xA5, 0x01, 0x80, 0x80] ∧
    packHdr .w16 0xC0 0x2269 0x0102 = [0xC0, 0x69, 0x22, 0x02, 0x01] := by decide
/-- V26: an ENCODE before any CONSTRUCT, carried over the ports, is one ProtocolError pulse (P3, first line). -/
theorem test_port_unconfigured :
    edgeStatus [commandPins 0b10 0, quietPins, quietPins] State.reset = [4] := by decide

/-- A placed word is the next operation executed: ENCODE from reset is ProtocolError (P3, first line), RSVD3 likewise. -/
theorem test_placed_word : look (·.result) (step (State.reset.withFetchWord 3 0b010)) =
      some (some ⟨.protocolError, none⟩) ∧
    look (·.result) (step (State.reset.withFetchWord 8 0b011)) = some (some ⟨.protocolError, none⟩) := by decide
/-- P1 and P5: the textual syntax, and RECONFIGURE. -/
theorem test_text : operationText (.encode [1, 2, 0xAD]) = some "ENCODE 01 02 AD" ∧
    resultText ⟨.ok, some [0xAA, 0x12, 0xD2]⟩ = "-> OK: AA 12 D2" ∧
    resultText ⟨.oversizedPayload, none⟩ = "-> OversizedPayload" := by decide
/-- P5: the encoding of its last three operations; a stage operation is no operation of a program (R107). -/
theorem test_program : programRequests (reconfigure fieldsV24 ++ [.encode [1, 2, 3]]) =
      some [⟨0b100, .packed 0, []⟩, ⟨0b001, .packed 0x089A4C00002D3910004, []⟩, ⟨0b010, .packed 0, [1, 2, 3]⟩] ∧
    programRequests [.nop, .seqInc] = none := by decide

/-! ### Witnesses: concrete values that meet the hypotheses of the statements -/

theorem replicate_le {α : Type} (x : α) : (List.replicate 255 x).length ≤ 255 := by
  rw [List.length_replicate]

theorem replicate_gt {α : Type} (x : α) : 255 < (List.replicate 256 x).length := by
  rw [List.length_replicate]; decide

/-- Byte elements. -/
def bytes (bs : List Byte) : List Int := bs.map elemOf

/-- An ENCODE of bytes that ends OK. -/
theorem encode_ok {s : State} {c : Cfg} {v : Word16} (bs : List Byte) (hl : s.life = .configured)
    (hc : s.cfg = some c) (hv : s.seq = some v) (hn : bs.length ≤ 255) :
    exec (.encode (bytes bs)) s =
      .next (({ s with seq := some (v + 1) } : State).endEncode .ok (some (transmitUnit c v bs))) :=
  execEncode_bytes hl hc hv hn

/-- A state with two requests waiting and the ports idle. -/
def waiting (h : HostRequest) : State := { State.reset with requests := [h, ⟨0b000, .packed 0, []⟩] }

/-- A state with an operation placed by itself, before a waiting request. -/
def placing (r : Request) : State := { waiting ⟨0b100, .packed 0, []⟩ with placed := some r }

/-- A state with an operation in progress on the ports. -/
def busy (p : Port) (edges : List Pins) : State :=
  { configured (cfgV24 false false) 0x2269 with port := p, out := [0xAA, 0x91], edges := edges }

/-- A short configuration, so that a transmit unit is short: one preamble byte, one sync word. -/
def cfgShort (fec whitening : Bool) : Cfg := ⟨1, 0x91, 0xD3, 1, 0xC0, fec, whitening, 0x69, 0x22⟩

/-- The operands of a CONSTRUCT that leads to `cfgShort false false`. -/
def fieldsShort : CfgFields := ⟨1, 0x91, 0xD3, 1, 0xC0, 0, 0, 0x69, 0x22⟩

theorem witness_ConfigurationWordSurvivesUnpacking :
    fieldsV24.Fits ∧ fieldsMin.Fits ∧ fieldsMax.Fits := by decide

theorem witness_StepRunsTheDecodedOperation :
    ((waiting ⟨0b010, .packed 0, [1]⟩).port = .idle ∧ (waiting ⟨0b010, .packed 0, [1]⟩).placed = none ∧
      (waiting ⟨0b010, .packed 0, [1]⟩).requests = [⟨0b010, .packed 0, [1]⟩, ⟨0b000, .packed 0, []⟩] ∧
      decode (hostCommand ⟨0b010, .packed 0, [1]⟩) = .ok (.encode [1])) ∧
    ((placing ⟨.stage 0b0100, .packed 0, []⟩).port = .idle ∧
      (placing ⟨.stage 0b0100, .packed 0, []⟩).placed = some ⟨.stage 0b0100, .packed 0, []⟩ ∧
      decode ⟨.stage 0b0100, .packed 0, []⟩ = .ok .whiten) := by decide

theorem witness_StepWithoutADecodedOperation :
    (State.reset.placed = none ∧ State.reset.requests = [] ∧ State.reset.edges = []) ∧
    ((busy (.status .ok) []).port ≠ .idle ∧ (busy (.status .ok) []).edges = []) ∧
    ((busy (.output 1) [drainPins]).port ≠ .idle ∧ (busy (.output 1) [drainPins]).edges = [drainPins]) ∧
    ((busy .idle [quietPins]).placed = none ∧ (busy .idle [quietPins]).requests = [] ∧
      (busy .idle [quietPins]).edges = [quietPins]) ∧
    ((placing ⟨.stage 0b0011, .packed 0, []⟩).port = .idle ∧
      (placing ⟨.stage 0b0011, .packed 0, []⟩).placed = some ⟨.stage 0b0011, .packed 0, []⟩ ∧
      0b0011#4 ∉ [0b0010#4, 0b0100#4, 0b0110#4, 0b1000#4, 0b1010#4, 0b1011#4]) ∧
    0b0000#4 ∉ [0b0010#4, 0b0100#4, 0b0110#4, 0b1000#4, 0b1010#4, 0b1011#4] ∧
    0b1111#4 ∉ [0b0010#4, 0b0100#4, 0b0110#4, 0b1000#4, 0b1010#4, 0b1011#4] := by decide

theorem witness_PlacedTableWordRunsNext :
    decodeTableWord 3 0b010 = some (.encode []) ∧ decodeTableWord 2 0b11 = some .xfBoth ∧
    decodeTableWord 4 0b1000 = some .prepend := by decide

theorem witness_ResetEndsTheConfiguration :
    (0b100#3).getLsbD 2 = true ∧ (0b111#3).getLsbD 2 = true ∧ ({ drainPins with rst := true } : Pins).rst = true ∧
    State.reset.life = .unconfigured ∧ State.reset.Coherent ∧ State.reset.AtRest :=
  ⟨rfl, rfl, rfl, rfl, ⟨rfl, rfl⟩, ⟨rfl, rfl, rfl, rfl, rfl, rfl, rfl⟩⟩

theorem witness_ConstructWritesEveryRegister :
    State.reset.life = .unconfigured ∧ validCfg fieldsV24 = true ∧ validCfg fieldsMin = true ∧
    validCfg fieldsMax = true := by decide

theorem witness_RefusedConstructWritesNothing :
    (configured (cfgV24 false false) 0).life = .configured ∧ State.reset.life = .unconfigured ∧
    validCfg { fieldsV24 with preambleBytes := 65536 } = false ∧ validCfg { fieldsV24 with preambleBytes := -1 } = false ∧
    validCfg { fieldsV24 with fec := 2 } = false ∧ validCfg fieldsV24 = true := by decide

theorem witness_EncodeWhileUnconfiguredIsRefused : State.reset.life = .unconfigured := rfl

theorem witness_OversizedChunkIsRejected :
    (configured (cfgV24 false false) 0).life = .configured ∧ 255 < (List.replicate 256 (0 : Int)).length :=
  ⟨rfl, replicate_gt 0⟩

theorem witness_LegalChunkReturnsItsTransmitUnit :
    (configured (cfgV24 true true) 0xFFFF).life = .configured ∧
    (configured (cfgV24 true true) 0xFFFF).cfg = some (cfgV24 true true) ∧
    (configured (cfgV24 true true) 0xFFFF).seq = some 0xFFFF ∧ ([] : List Byte).length ≤ 255 ∧
    (List.replicate 255 (0 : Byte)).length ≤ 255 := ⟨rfl, rfl, rfl, by decide, replicate_le 0⟩

theorem witness_NonByteChunkWithFecBurnsASequenceNumber :
    (configured (cfgV24 true false) 0xFFFF).life = .configured ∧
    (configured (cfgV24 true false) 0xFFFF).cfg = some (cfgV24 true false) ∧
    (configured (cfgV24 true false) 0xFFFF).seq = some 0xFFFF ∧ ([0, 256] : List Int).length ≤ 255 ∧
    (cfgV24 true false).fec = true ∧ (∃ x ∈ ([0, 256] : List Int), x < 0 ∨ 255 < x) ∧
    (∃ x ∈ ([-1] : List Int), x < 0 ∨ 255 < x) := by decide

theorem witness_NonByteChunkWithoutFecStops :
    (configured (cfgV24 false true) 0).life = .configured ∧
    (configured (cfgV24 false true) 0).cfg = some (cfgV24 false true) ∧
    (configured (cfgV24 false true) 0).seq = some 0 ∧ ([256] : List Int).length ≤ 255 ∧
    (cfgV24 false true).fec = false ∧ (∃ x ∈ ([256] : List Int), x < 0 ∨ 255 < x) ∧
    (∃ x ∈ ([-1] : List Int), x < 0 ∨ 255 < x) := by decide

theorem configured_coherent (c : Cfg) (v : Word16) : (configured c v).Coherent := ⟨rfl, rfl⟩

theorem witness_ErrorsAreTestedInTheirOrder :
    (0b100#3).getLsbD 2 = true ∧ ({ quietPins with rst := true } : Pins).rst = true ∧
    State.reset.Coherent ∧ (configured (cfgV24 false false) 0).Coherent ∧
    (∀ c, (configured (cfgV24 false false) 0).cfg = some c → c.fec = false → ([255] : List Int).length ≤ 255 →
      ∀ x ∈ ([255] : List Int), IsByte x) ∧
    (configured (cfgV24 true false) 0).Coherent ∧
    (∀ c, (configured (cfgV24 true false) 0).cfg = some c → c.fec = false → ([256] : List Int).length ≤ 255 →
      ∀ x ∈ ([256] : List Int), IsByte x) ∧
    255 < (List.replicate 256 (256 : Int)).length := by
  refine ⟨rfl, rfl, ⟨rfl, rfl⟩, configured_coherent _ _, fun c _ _ _ => by decide, configured_coherent _ _, ?_,
    replicate_gt 256⟩
  intro c hc hf
  cases hc
  cases hf

theorem witness_EncodeIsItsStagesInOrder :
    (configured (cfgV24 true true) 0).life = .configured ∧
    (configured (cfgV24 true true) 0).cfg = some (cfgV24 true true) ∧
    (configured (cfgV24 true true) 0).seq = some 0 ∧ ([1, 2, 3] : List Byte).length ≤ 255 := by decide

theorem witness_SeqReadReturnsTheCounter : (configured (cfgV24 false false) 0x2269).seq = some 0x2269 := rfl

theorem witness_SeqIncStepsTheCounter : (configured (cfgV24 false false) 0xFFFF).seq = some 0xFFFF := rfl

theorem witness_AssembleBuildsTheFrame :
    (withChunk 0xFFFF (List.replicate 255 0)).cfg = some (cfgV24 false false) ∧
    (withChunk 0xFFFF (List.replicate 255 0)).seq = some 0xFFFF ∧
    (withChunk 0xFFFF (List.replicate 255 0)).inp.length ≤ 255 := ⟨rfl, rfl, replicate_le 0⟩

theorem witness_AssembleRejectsAnOversizedChunk : 255 < (withChunk 0 (List.replicate 256 0)).inp.length := replicate_gt 0

theorem witness_ReadingNoValueIsAFault :
    State.reset.seq = none ∧ State.reset.cfg = none ∧ State.reset.inp.length ≤ 255 ∧
    ({ configured (cfgV24 false false) 0 with seq := none } : State).life = .configured ∧
    ({ configured (cfgV24 false false) 0 with seq := none } : State).seq = none ∧
    ({ configured (cfgV24 false false) 0 with cfg := none } : State).cfg = none ∧ ([1] : List Int).length ≤ 255 := by
  decide

theorem witness_HeaderFormatsAreLowByteFirst : (0 : Nat) ≤ 255 ∧ (255 : Nat) ≤ 255 ∧ (65535 : Nat) ≤ 65535 := by decide

theorem witness_WhitenXorsEachByteWithItsKey : (withFrame frameV22).frame[6]? = some (elemOf 0x03) := by decide

/-- The empty frame and a frame of 300 bytes, longer than any a chunk gives. -/
theorem witness_WhiteningTwiceIsTheIdentity :
    (withFrame (bytes [])).frame = ([] : List Byte).map elemOf ∧
    (withFrame (bytes (List.replicate 300 0xFF))).frame = (List.replicate 300 (0xFF : Byte)).map elemOf := ⟨rfl, rfl⟩

theorem witness_KeyBytesHavePeriod511 : (0x1FF : Lfsr) ≠ 0 ∧ (0x100 : Lfsr) ≠ 0 ∧ (0x001 : Lfsr) ≠ 0 := by decide

theorem witness_FecEncodeWritesTwoCodewordsPerByte :
    (∃ x ∈ (withFrame [0, 256]).frame, x < 0 ∨ 255 < x) ∧ (∃ x ∈ (withFrame [-1]).frame, x < 0 ∨ 255 < x) ∧
    (withFrame [0xC0, 0x69]).frame = ([0xC0, 0x69] : List Byte).map elemOf ∧
    ([0xC0, 0x69] : List Byte)[1]? = some 0x69 := by decide

theorem witness_CodewordIsExtendedHamming : (0xC : Nibble) ≠ 0x5 ∧ (0x0 : Nibble) ≠ 0xF := by decide

theorem witness_DecoderCorrectsOneAndDetectsTwo : (0 : Fin 8) ≠ 7 ∧ (0 : Fin 8) ≠ 4 := by decide

/-- V36: one bit wrong in each of the four codewords of C0 69. -/
theorem witness_OneWrongBitPerCodewordIsCorrected :
    List.Forall₂ (fun a b => b = a ∨ ∃ k : Fin 8, b = a ^^^ ((1 : Byte) <<< k.val)) (fecBytes [0xC0, 0x69])
      [0xC8, 0x80, 0x61, 0x9D] :=
  .cons (.inr ⟨0, by decide⟩) (.cons (.inr ⟨7, by decide⟩) (.cons (.inr ⟨1, by decide⟩)
    (.cons (.inr ⟨0, by decide⟩) .nil)))

theorem witness_PrependLaysOutTheTransmitUnit :
    (withEnc 2 0x7E 0x7F 3 [0xC0]).cfg = some ⟨2, 0x7E, 0x7F, 3, 0, false, false, 0, 0⟩ ∧
    1 < (2 : Word16).toNat ∧ 2 < (3 : Word16).toNat := by decide

theorem witness_TransformModesEncodeTheFrame :
    (withFrame frameV22).frame = ([0xC0, 0x69, 0x22, 0x03, 0x01, 0x02, 0x03] : List Byte).map elemOf := by decide

theorem witness_TransformModesOfANonByteFrame :
    (∃ x ∈ (withFrame [0, 256]).frame, x < 0 ∨ 255 < x) ∧ (∃ x ∈ (withFrame [-1]).frame, x < 0 ∨ 255 < x) := by decide

/-- P2 and V23 shapes: an ENCODE that ends OK, with and without FEC and whitening, of an empty and of a full byte. -/
theorem witness_LengthLaw :
    (∃ t tu, (configured (cfgShort true true) 1).cfg = some (cfgShort true true) ∧
      exec (.encode (bytes [])) (configured (cfgShort true true) 1) = .next t ∧ t.result = some ⟨.ok, some tu⟩) ∧
    (∃ t tu, (configured (cfgShort false false) 1).cfg = some (cfgShort false false) ∧
      exec (.encode (bytes [0xFF])) (configured (cfgShort false false) 1) = .next t ∧ t.result = some ⟨.ok, some tu⟩) :=
  ⟨⟨_, _, rfl, encode_ok [] rfl rfl rfl (by decide), rfl⟩,
   ⟨_, _, rfl, encode_ok [0xFF] rfl rfl rfl (by decide), rfl⟩⟩

theorem witness_SectionLengths :
    ∃ t tu, (configured (cfgShort true true) 1).cfg = some (cfgShort true true) ∧
      (configured (cfgShort true true) 1).seq = some 1 ∧
      exec (.encode (bytes [0xFF])) (configured (cfgShort true true) 1) = .next t ∧
      t.result = some ⟨.ok, some tu⟩ ∧ 0 < (cfgShort true true).preambleBytes.toNat ∧
      0 < (cfgShort true true).syncWords.toNat :=
  ⟨_, _, rfl, rfl, encode_ok [0xFF] rfl rfl rfl (by decide), rfl, by decide, by decide⟩

theorem witness_PlainRoundTrip :
    ∃ t tu, (configured (cfgShort false false) 1).cfg = some (cfgShort false false) ∧
      (cfgShort false false).fec = false ∧ (cfgShort false false).whitening = false ∧
      (bytes [0x00, 0xFF]).length ≤ 255 ∧
      exec (.encode (bytes [0x00, 0xFF])) (configured (cfgShort false false) 1) = .next t ∧ t.result = some ⟨.ok, some tu⟩ :=
  ⟨_, _, rfl, rfl, rfl, by decide, encode_ok [0x00, 0xFF] rfl rfl rfl (by decide), rfl⟩

theorem witness_TransmitUnitIsInvertible :
    ∃ t t' tu, (configured (cfgShort true true) 1).cfg = some (cfgShort true true) ∧
      (configured (cfgShort true true) 1).seq = some 1 ∧
      exec (.encode (bytes [0x07])) (configured (cfgShort true true) 1) = .next t ∧ t.result = some ⟨.ok, some tu⟩ ∧
      ({ configured (cfgShort true true) 1 with inp := [5] } : State).cfg = some (cfgShort true true) ∧
      ({ configured (cfgShort true true) 1 with inp := [5] } : State).seq = some 1 ∧
      exec (.encode (bytes [0x07])) { configured (cfgShort true true) 1 with inp := [5] } = .next t' ∧
      t'.result = some ⟨.ok, some tu⟩ :=
  ⟨_, _, _, rfl, rfl, encode_ok [0x07] rfl rfl rfl (by decide), rfl, rfl, rfl,
    encode_ok [0x07] rfl rfl rfl (by decide), rfl⟩

theorem witness_PrefixDependsOnTheLinkRegistersAlone :
    ∃ t t' tu tu', (configured (cfgShort true true) 1).cfg = some (cfgShort true true) ∧
      exec (.encode (bytes [0x07])) (configured (cfgShort true true) 1) = .next t ∧ t.result = some ⟨.ok, some tu⟩ ∧
      (configured (cfgShort false false) 9).cfg = some (cfgShort false false) ∧
      exec (.encode (bytes [])) (configured (cfgShort false false) 9) = .next t' ∧ t'.result = some ⟨.ok, some tu'⟩ ∧
      (cfgShort false false).preambleBytes = (cfgShort true true).preambleBytes ∧
      (cfgShort false false).syncByte0 = (cfgShort true true).syncByte0 ∧
      (cfgShort false false).syncByte1 = (cfgShort true true).syncByte1 ∧
      (cfgShort false false).syncWords = (cfgShort true true).syncWords :=
  ⟨_, _, _, _, rfl, encode_ok [0x07] rfl rfl rfl (by decide), rfl, rfl,
    encode_ok [] rfl rfl rfl (by decide), rfl, rfl, rfl, rfl, rfl⟩

/-- Both values of fec; the counter steps from 0x00FF to 0x0100, so both bytes of the field change. -/
theorem witness_SameChunkTwiceDiffersInTheSequenceField :
    (∃ t t' tu tu', (configured (cfgShort false true) 0xFF).cfg = some (cfgShort false true) ∧
      exec (.encode (bytes [0x07])) (configured (cfgShort false true) 0xFF) = .next t ∧ t.result = some ⟨.ok, some tu⟩ ∧
      exec (.encode (bytes [0x07])) t = .next t' ∧ t'.result = some ⟨.ok, some tu'⟩ ∧ (cfgShort false true).fec = false) ∧
    (∃ t t' tu tu', (configured (cfgShort true false) 0xFF).cfg = some (cfgShort true false) ∧
      exec (.encode (bytes [0x07])) (configured (cfgShort true false) 0xFF) = .next t ∧ t.result = some ⟨.ok, some tu⟩ ∧
      exec (.encode (bytes [0x07])) t = .next t' ∧ t'.result = some ⟨.ok, some tu'⟩ ∧ (cfgShort true false).fec = true) :=
  ⟨⟨_, _, _, _, rfl, encode_ok [0x07] rfl rfl rfl (by decide), rfl,
    encode_ok [0x07] rfl rfl rfl (by decide), rfl, rfl⟩,
   ⟨_, _, _, _, rfl, encode_ok [0x07] rfl rfl rfl (by decide), rfl,
    encode_ok [0x07] rfl rfl rfl (by decide), rfl, rfl⟩⟩

theorem witness_FailedOperationChangesNothing :
    (∃ t r, exec .rsvd3 State.reset = .next t ∧ t.result = some r ∧ r.status ≠ .ok ∧
      r.status ≠ .invalidEncoderInput) ∧
    (∃ t r, exec (.encode [256]) (configured (cfgShort true false) 0xFFFF) = .next t ∧ t.result = some r ∧
      r.status = .invalidEncoderInput) :=
  ⟨⟨_, _, rfl, rfl, by decide, by decide⟩, ⟨_, _, rfl, rfl, rfl⟩⟩

theorem witness_ResultHoldsAUnitOnlyForOkEncode :
    (∃ t, (Instr.encode [7]).isHostOp = true ∧ exec (.encode [7]) (configured (cfgShort false false) 1) = .next t) ∧
    (∃ t, Instr.nop.isHostOp = true ∧ exec .nop State.reset = .next t) :=
  ⟨⟨_, rfl, rfl⟩, ⟨_, rfl, rfl⟩⟩

theorem witness_ConfigurationIsImmutable :
    ∃ t u, (configured (cfgShort false false) 1).life = .configured ∧
      (configured (cfgShort false false) 1).cfg = some (cfgShort false false) ∧
      (∀ i ∈ [Instr.construct fieldsMax, .encode [7], .rsvd3], i ≠ .reset) ∧
      runOps [.construct fieldsMax, .encode [7], .rsvd3] (configured (cfgShort false false) 1) = .next t ∧
      (∀ p ∈ [commandPins 0b01 0, quietPins], p.rst = false) ∧
      runEdges [commandPins 0b01 0, quietPins] (configured (cfgShort false false) 1) = .next u :=
  ⟨_, _, rfl, rfl, by decide, rfl, by decide, rfl⟩

/-- From a configured instance any number of ENCODEs of the empty chunk answers a next state. -/
theorem runOps_empty_chunks (n : Nat) (c : Cfg) (s : State) (v : Word16) (hl : s.life = .configured)
    (hc : s.cfg = some c) (hv : s.seq = some v) :
    ∃ t, runOps (List.replicate n (.encode [])) s = .next t := by
  induction n generalizing s v with
  | zero => exact ⟨s, rfl⟩
  | succ n ih =>
    have h : exec (.encode []) s = _ := execEncode_bytes (bs := []) hl hc hv (by decide)
    simp only [List.replicate_succ, runOps, h]
    exact ih _ (v + 1) hl hc rfl

/-- The second part is the clause on 65536 ENCODEs (V33). -/
theorem witness_CountingLaw :
    (∃ s' t, exec (.construct fieldsShort) State.reset = .next s' ∧ s'.result = some ⟨.ok, none⟩ ∧
      (∀ i ∈ [Instr.encode [7], .nop, .encode []], i.isHostOp = true ∧ i ≠ .reset) ∧
      runOps [.encode [7], .nop, .encode []] s' = .next t) ∧
    (∃ s' t, exec (.construct fieldsShort) State.reset = .next s' ∧ s'.result = some ⟨.ok, none⟩ ∧
      (∀ i ∈ List.replicate 65536 (Instr.encode []), i.isHostOp = true ∧ i ≠ .reset) ∧
      runOps (List.replicate 65536 (.encode [])) s' = .next t ∧
      (List.replicate 65536 (Instr.encode [])).countP passesSizeCheck = 65536) := by
  refine ⟨⟨_, _, rfl, rfl, by decide, rfl⟩, ?_⟩
  obtain ⟨t, ht⟩ := runOps_empty_chunks 65536 (cfgShort false false)
    { configured (cfgShort false false) 0x2269 with result := some ⟨.ok, none⟩ } 0x2269 rfl rfl rfl
  refine ⟨_, t, rfl, rfl, ?_, ht, ?_⟩
  · intro i hi
    rw [List.eq_of_mem_replicate hi]
    decide
  · rw [List.countP_replicate, if_pos (by decide)]

/-- An ENCODE that passes the size check, and a NOP. -/
theorem witness_EachHostOperationCountsItself :
    ((configured (cfgShort false false) 0xFFFF).life = .configured ∧
      (configured (cfgShort false false) 0xFFFF).seq = some 0xFFFF ∧ (Instr.encode [7]).isHostOp = true ∧
      Instr.encode [7] ≠ .reset ∧ passesSizeCheck (.encode [7]) = true ∧
      look (·.seq) (exec (.encode [7]) (configured (cfgShort false false) 0xFFFF)) = some (some 0)) ∧
    (Instr.nop.isHostOp = true ∧ Instr.nop ≠ .reset ∧ passesSizeCheck .nop = false ∧
      look (·.seq) (exec .nop (configured (cfgShort false false) 0xFFFF)) = some (some 0xFFFF)) ∧
    passesSizeCheck (.encode (List.replicate 255 0)) = true ∧ passesSizeCheck (.encode (List.replicate 256 0)) = false :=
  ⟨by decide, by decide, by rw [passesSizeCheck, List.length_replicate]; decide,
    by rw [passesSizeCheck, List.length_replicate]; decide⟩

theorem witness_SequenceProgression :
    ∃ s' t u tu, exec (.construct fieldsShort) State.reset = .next s' ∧ s'.result = some ⟨.ok, none⟩ ∧
      (∀ i ∈ [Instr.encode [7], .nop], i.isHostOp = true ∧ i ≠ .reset) ∧
      runOps [.encode [7], .nop] s' = .next t ∧ exec (.encode [8]) t = .next u ∧
      passesSizeCheck (.encode [8]) = true ∧ u.result = some ⟨.ok, some tu⟩ :=
  ⟨_, _, _, _, rfl, rfl, by decide, rfl, rfl, by decide, rfl⟩

theorem witness_EncodeDependsOnConfigurationAndCounterAlone :
    (∃ t, (busy .idle []).life = (configured (cfgV24 false false) 0x2269).life ∧
      (busy .idle []).cfg = (configured (cfgV24 false false) 0x2269).cfg ∧
      (busy .idle []).seq = (configured (cfgV24 false false) 0x2269).seq ∧
      exec (.encode [7]) (configured (cfgV24 false false) 0x2269) = .next t) ∧
    exec (.encode [256]) (configured (cfgV24 false false) 0x2269) = .fault .nonByte ∧
    State.reset.life = .unconfigured ∧ (waiting ⟨0b000, .packed 0, []⟩).life = .unconfigured :=
  ⟨⟨_, rfl, rfl, rfl, rfl⟩, rfl, rfl, rfl⟩

theorem witness_InstancesAreIndependent :
    ∃ b b', (0 : Nat) ≠ 1 ∧
      execInstance 1 (.construct fieldsShort) [State.reset, State.reset] = .next b ∧
      stepInstance 1 [State.reset, waiting ⟨0b000, .packed 0, []⟩] = .next b' ∧
      ([configured (cfgShort true true) 9, State.reset] : List State)[1]? = [State.reset, State.reset][1]? ∧
      ([configured (cfgShort true true) 9, waiting ⟨0b000, .packed 0, []⟩] : List State)[1]? =
        [State.reset, waiting ⟨0b000, .packed 0, []⟩][1]? :=
  ⟨_, _, by decide, rfl, rfl, rfl, rfl⟩

/-- A step of the counter (the wrap), a seeding, a reset, and a step that keeps the counter. -/
theorem witness_HostCannotSetTheCounter :
    look (·.seq) (step { configured (cfgShort true false) 0xFFFF with requests := [⟨0b010, .packed 0, [256]⟩] }) =
      some (some 0) ∧
    look (·.seq) (step (waiting ⟨0b001, .packed 0x089A4C00002D3910004, []⟩)) = some (some 0x2269) ∧
    look (·.seq) (step { configured (cfgShort true false) 7 with edges := [{ quietPins with rst := true }] }) =
      some none ∧
    look (·.seq) (step (busy (.output 1) [drainPins])) = some (some 0x2269) ∧
    (configured (cfgShort true false) 0xFFFF).placed = none ∧
    (waiting ⟨0b001, .packed 0x089A4C00002D3910004, []⟩).placed = none ∧ (busy (.output 1) [drainPins]).placed = none := by
  decide

/-- An input phase, an output phase and a status clock that meet the invariant, with an edge each. -/
theorem witness_EveryStepKeepsTheInvariant :
    (∃ t, State.reset.Inv ∧ step State.reset = .next t) ∧
    (∃ t, (busy (.input false) [bytePins 0x07 true]).Inv ∧ step (busy (.input false) [bytePins 0x07 true]) = .next t) ∧
    (∃ t, (busy (.output 1) [drainPins]).Inv ∧ step (busy (.output 1) [drainPins]) = .next t) ∧
    (∃ t, (busy (.status .ok) [quietPins]).Inv ∧ step (busy (.status .ok) [quietPins]) = .next t) :=
  ⟨⟨_, ⟨⟨rfl, rfl⟩, rfl, trivial⟩, rfl⟩,
   ⟨_, ⟨⟨rfl, rfl⟩, rfl, ⟨rfl, by decide, by decide, by decide⟩⟩, rfl⟩,
   ⟨_, ⟨⟨rfl, rfl⟩, rfl, ⟨rfl, by decide⟩⟩, rfl⟩,
   ⟨_, ⟨⟨rfl, rfl⟩, rfl, trivial⟩, rfl⟩⟩

theorem witness_HostCannotStopTheMachine :
    (busy (.output 0) []).Inv ∧ (configured (cfgV24 false false) 0).Inv ∧ (Instr.encode [255]).isHostOp = true ∧
    (∀ ch c, Instr.encode [255] = .encode ch → (configured (cfgV24 false false) 0).cfg = some c → c.fec = false →
      ∀ x ∈ ch, IsByte x) := by
  refine ⟨⟨⟨rfl, rfl⟩, rfl, ⟨rfl, by decide⟩⟩, ⟨⟨rfl, rfl⟩, rfl, trivial⟩, rfl, ?_⟩
  intro ch c h _ _
  cases h
  decide

theorem witness_RstAbandonsTheOperation : ({ drainPins with rst := true } : Pins).rst = true := rfl

theorem witness_PinsFollowThePhase :
    (busy (.output 1) []).port = .output 1 ∧ quietPins.rst = false ∧ (∀ i, (busy (.status .ok) []).port ≠ .output i) ∧
    ((busy .idle []).port = .idle ∧ quietPins.cmdValid = false) ∧
    ((busy (.input true) []).port = .input true ∧ quietPins.inValid = false) ∧ quietPins.outReady = false := by
  refine ⟨rfl, rfl, fun i h => ?_, ⟨rfl, rfl⟩, ⟨rfl, rfl⟩, rfl⟩
  cases h

theorem witness_PortCommandEndsAtTheNextClock :
    (State.reset.port = .idle ∧ (configured (cfgV24 false false) 0).port = .idle ∧ quietPins.rst = false) ∧
    ((commandPins 0b00 0).rst = false ∧ (commandPins 0b00 0).cmdValid = true ∧ (commandPins 0b00 0).cmdOp = 0b00) ∧
    ((commandPins 0b01 0x089A4C00002D3910004).cmdOp = 0b01 ∧
      Instr.construct fieldsV24 = .construct (unpackCfg (commandPins 0b01 0x089A4C00002D3910004).cmdCfg)) ∧
    (commandPins 0b11 0).cmdOp = 0b11 ∧
    ((commandPins 0b10 0).cmdOp = 0b10 ∧ State.reset.life = .unconfigured) := by decide

/-- Pins that present a beat with no byte (44_pipeline_ops.md R218). -/
def noBytePins (last : Bool) : Pins := { quietPins with inValid := true, inData := 0x55, inLast := last }

/-- A chunk of 01 02 with beats that carry no byte before, between and after its bytes, an edge without a beat that
has in_last = 1, and a command presented in the input phase. -/
def gappyInput : List Pins :=
  [noBytePins false, bytePins 0x01 false, { commandPins 0b01 0 with inLast := true }, noBytePins false,
    bytePins 0x02 false, noBytePins true]

/-- The input phases: with gaps; the empty chunk, as one beat (R218) and as two; 255 bytes. The output phases: the unit
of 9 bytes with the HOST not ready at first, and any unit drained without a pause. -/
theorem witness_PortEncodeDeliversTheTransmitUnit :
    ((configured (cfgShort false true) 0xFFFF).port = .idle ∧ (configured (cfgShort false true) 0xFFFF).life = .configured ∧
      (configured (cfgShort false true) 0xFFFF).cfg = some (cfgShort false true) ∧
      (configured (cfgShort false true) 0xFFFF).seq = some 0xFFFF) ∧
    ((commandPins 0b10 0).rst = false ∧ (commandPins 0b10 0).cmdValid = true ∧ (commandPins 0b10 0).cmdOp = 0b10 ∧
      quietPins.rst = false) ∧
    (isInputPhase gappyInput = true ∧ keptBytes gappyInput = [0x01, 0x02]) ∧
    (isInputPhase [noBytePins true] = true ∧ keptBytes [noBytePins true] = []) ∧
    (isInputPhase [noBytePins false, noBytePins true] = true ∧ keptBytes [noBytePins false, noBytePins true] = []) ∧
    (isInputPhase (chunkPins (List.replicate 255 0)) = true ∧
      (keptBytes (chunkPins (List.replicate 255 0))).length ≤ 255) ∧
    isOutputPhase (quietPins :: List.replicate 9 drainPins)
      (transmitUnit (cfgShort false true) 0xFFFF (keptBytes gappyInput)).length = true ∧
    (∀ n, isOutputPhase (List.replicate n drainPins) n = true) :=
  ⟨by decide, by decide, by decide, by decide, by decide,
    ⟨isInputPhase_chunkPins _, (congrArg List.length (keptBytes_chunkPins _)).trans_le (replicate_le 0)⟩, by decide,
    isOutputPhase_replicate⟩

/-- A chunk of 256 bytes. -/
theorem witness_PortOversizedChunkIsDiscarded :
    (configured (cfgV24 true true) 0).port = .idle ∧ (configured (cfgV24 true true) 0).life = .configured ∧
    ((commandPins 0b10 0).rst = false ∧ (commandPins 0b10 0).cmdValid = true ∧ (commandPins 0b10 0).cmdOp = 0b10 ∧
      quietPins.rst = false) ∧
    (isInputPhase (chunkPins (List.replicate 256 0)) = true ∧
      255 < (keptBytes (chunkPins (List.replicate 256 0))).length) :=
  ⟨rfl, rfl, by decide, isInputPhase_chunkPins _,
    (replicate_gt 0).trans_eq (congrArg List.length (keptBytes_chunkPins _)).symm⟩

end Sys2Proof.Tests
end

section
/-! SUPPORT. Which operation a step runs (00_scope.md R14, 44_pipeline_ops.md R196). -/

namespace Sys2Proof.Machine

/-- An operation placed by itself runs before any request of the HOST (log entry 9). -/
theorem step_of_placed {s : State} {r : Request} (hp : s.port = .idle) (hr : s.placed = some r) :
    step s = runRequest r { s with placed := none } := by
  simp only [step, advance, hp, hr]

/-- With nothing placed, the first request of the HOST runs and leaves the list. -/
theorem step_of_request {s : State} {h : HostRequest} {hs : List HostRequest} (hp : s.port = .idle)
    (hn : s.placed = none) (hr : s.requests = h :: hs) :
    step s = runRequest (hostCommand h) { s with requests := hs } := by
  simp only [step, advance, nextRequest, hp, hn, hr]

/-- Settles O4: the step hands the placed operation or the first request to `runRequest`, which executes what it
decodes to, and a command of a HOST always decodes to a host operation. -/
theorem stepRunsTheDecodedOperation : Obligations.StepRunsTheDecodedOperation := by
  refine ⟨?request, ?placed, decode_hostCommand⟩
  case request =>
    intro s h hs i hp hn hr hd
    exact (step_of_request hp hn hr).trans (runRequest_ok _ hd)
  case placed =>
    intro s r i hp hr hd
    exact (step_of_placed hp hr).trans (runRequest_ok _ hd)

end Sys2Proof.Machine
end

section
/-! SUPPORT. No stage operation leaves a W behind (10_state.md R34): each is followed through the sequencing it is
built of. -/

namespace Sys2Proof.Machine

/-- W exists in no state the stage ends in. -/
def StageOut.NoW : StageOut → Prop
  | .done t => t.w = none
  | .raised _ t => t.w = none
  | .stopped _ => True

theorem StageOut.NoW.andThen {r : StageOut} {k : State → StageOut} (hr : r.NoW)
    (hk : ∀ t, t.w = none → (k t).NoW) : (r.andThen k).NoW := by
  cases r with
  | done t => exact hk t hr
  | raised e t => exact hr
  | stopped f => trivial

theorem StageOut.NoW.withCfg {s : State} {k : Cfg → StageOut} (hk : ∀ c, (k c).NoW) : (withCfg s k).NoW := by
  rcases Option.eq_none_or_eq_some s.cfg with hc | ⟨c, hc⟩
  · rw [withCfg_none hc]; trivial
  · rw [withCfg_some hc]; exact hk c

theorem StageOut.NoW.withSeq {s : State} {k : Word16 → StageOut} (hk : ∀ v, (k v).NoW) : (withSeq s k).NoW := by
  rcases Option.eq_none_or_eq_some s.seq with hv | ⟨v, hv⟩
  · rw [withSeq_none hv]; trivial
  · rw [withSeq_some hv]; exact hk v

theorem StageOut.NoW.withSpace {α : Type} {a : Option (List α)} {k : List α → StageOut}
    (hk : ∀ v, (k v).NoW) : (withSpace a k).NoW := by
  cases a with
  | none => trivial
  | some v => exact hk v

theorem seqReadStage_noW {s : State} (hw : s.w = none) : (seqReadStage s).NoW :=
  .withSeq fun _ => hw

theorem seqIncStage_noW {s : State} (hw : s.w = none) : (seqIncStage s).NoW :=
  .withSeq fun _ => hw

theorem writeFrame_noW (v : Word16) {s : State} (hw : s.w = none) : (writeFrame v s).NoW :=
  .withCfg fun _ => .withSpace fun _ => .withSpace fun _ => .withSpace fun _ => hw

theorem assembleStage_noW {s : State} (hw : s.w = none) : (assembleStage s).NoW := by
  unfold assembleStage
  split
  · exact hw
  · refine .withSeq fun v => .andThen (writeFrame_noW v hw) fun t ht => ?_
    exact (seqIncStage_noW ht).andThen fun _ hu => hu

/-- WHITEN makes a W of its own and leaves none, whatever W was before it. -/
theorem whitenStage_noW (s : State) : (whitenStage s).NoW := by
  rw [whitenStage_eq]
  rfl

theorem fecEncodeStage_noW {s : State} (hw : s.w = none) : (fecEncodeStage s).NoW := by
  unfold fecEncodeStage
  split
  · exact .withSpace fun _ => hw
  · exact hw

theorem fecBypassStage_noW {s : State} (hw : s.w = none) : (fecBypassStage s).NoW := by
  unfold fecBypassStage
  split
  · exact .withSpace fun _ => hw
  · trivial

theorem prependStage_noW {s : State} (hw : s.w = none) : (prependStage s).NoW :=
  .withCfg fun _ => .withSpace fun _ => hw

theorem encodeStages_noW {s : State} (hw : s.w = none) : (encodeStages s).NoW := by
  refine (assembleStage_noW hw).andThen fun t ht => .withCfg fun c => ?_
  have whitened : (if c.whitening then whitenStage t else .done t : StageOut).NoW := by
    split
    · exact whitenStage_noW t
    · exact ht
  have encoded (u : State) (hu : u.w = none) : (if c.fec then fecEncodeStage u else fecBypassStage u).NoW := by
    split
    · exact fecEncodeStage_noW hu
    · exact fecBypassStage_noW hu
  exact whitened.andThen fun u hu => (encoded u hu).andThen fun _ hx => prependStage_noW hx

/-- A stage operation or transform mode that answers a next state leaves no W. -/
theorem exec_stage_noW {i : Instr} {s t : State} (hi : i.isHostOp = false) (hw : s.w = none)
    (h : exec i s = .next t) : t.w = none := by
  have key : ∀ r : StageOut, r.NoW → runStage r = .next t → t.w = none := by
    intro r hr hn
    cases r with
    | done u => cases hn; exact hr
    | raised e u => cases hn; exact hr
    | stopped f => cases hn
  cases i <;> simp only [Instr.isHostOp, Bool.true_eq_false] at hi
  case xfIdentity => exact key _ (fecBypassStage_noW hw) h
  case xfWhitened => exact key _ ((whitenStage_noW s).andThen fun _ => fecBypassStage_noW) h
  case xfFec => exact key _ (fecEncodeStage_noW hw) h
  case xfBoth => exact key _ ((whitenStage_noW s).andThen fun _ => fecEncodeStage_noW) h
  case assemble => exact key _ (assembleStage_noW hw) h
  case whiten => exact key _ (whitenStage_noW s) h
  case fecEncode => exact key _ (fecEncodeStage_noW hw) h
  case prepend => exact key _ (prependStage_noW hw) h
  case seqRead => exact key _ (seqReadStage_noW hw) h
  case seqInc => exact key _ (seqIncStage_noW hw) h

end Sys2Proof.Machine
end

section
/-! SUPPORT. All that an operation can do to LIFE, CFG and SEQ, to W, to the field placed and to the ports. -/

namespace Sys2Proof.Machine

/-- The persistent state moves in one of four ways: it is kept, the counter steps by one, a CONSTRUCT writes all of it,
or RESET takes it away (10_state.md R22, R29 to R32, R38). -/
def RegMove (s t : State) : Prop :=
  (t.life = s.life ∧ t.cfg = s.cfg ∧ t.seq = s.seq) ∨
  (t.life = s.life ∧ t.cfg = s.cfg ∧ ∃ v, s.seq = some v ∧ t.seq = some (v + 1)) ∨
  (s.life = .unconfigured ∧ t.life = .configured ∧
    ∃ c, t.cfg = some c ∧ t.seq = some (seqSeed c.seqByte0 c.seqByte1)) ∨
  (t.life = .unconfigured ∧ t.cfg = none ∧ t.seq = none)

/-- What every operation and every clock edge keeps. -/
structure Effect (s t : State) : Prop where
  regs : RegMove s t
  placed : t.placed = s.placed
  w : s.w = none → t.w = none

/-- What every operation executed whole keeps: it makes no progress on the ports. -/
structure OpEffect (s t : State) : Prop extends Effect s t where
  port : s.port = .idle → t.port = .idle

theorem SameOutside.regMove {s t : State} (h : SameOutside s t) : RegMove s t := by
  rcases h.seq with hs | hs
  · exact .inl ⟨h.life, h.cfg, hs⟩
  · exact .inr (.inl ⟨h.life, h.cfg, hs⟩)

theorem Effect.refl (s : State) : Effect s s :=
  ⟨SameOutside.rfl.regMove, rfl, id⟩

theorem OpEffect.reply (s : State) (st : Status) (u : Option (List Byte)) : OpEffect s (s.reply st u) :=
  { Effect.refl s with port := id }

/-- The end of an ENCODE keeps the ports and the persistent state and leaves no W. -/
theorem OpEffect.endEncode {s t : State} (st : Status) (u : Option (List Byte)) (h : RegMove s t)
    (hpl : t.placed = s.placed) (hp : t.port = s.port) : OpEffect s (t.endEncode st u) :=
  ⟨⟨h, hpl, fun _ => rfl⟩, hp.trans⟩

theorem OpEffect.restart (s : State) (st : Status) (u : Option (List Byte)) : OpEffect s (s.restart.reply st u) :=
  ⟨⟨.inr (.inr (.inr ⟨rfl, rfl, rfl⟩)), rfl, fun _ => rfl⟩, fun _ => rfl⟩

theorem execConstruct_effect {c : CfgFields} {s t : State} (h : execConstruct c s = .next t) : OpEffect s t := by
  rcases execConstruct_cases c s with ⟨_, ho⟩ | ⟨_, _, ho⟩ | ⟨hl, _, ho⟩ <;> cases ho.symm.trans h
  · exact .reply s _ _
  · exact .reply s _ _
  · exact ⟨⟨.inr (.inr (.inl ⟨hl, rfl, _, rfl, rfl⟩)), rfl, id⟩, id⟩

theorem execEncode_effect {ch : List Int} {s t : State} (h : execEncode ch s = .next t) : OpEffect s t := by
  rcases execEncode_next h with ⟨_, rfl⟩ | ⟨_, _, rfl⟩ | ⟨c, v, bs, _, _, hv, _, _, rfl⟩ |
    ⟨c, v, _, _, hv, _, _, _, rfl⟩
  · exact .reply s _ _
  · exact .endEncode _ _ SameOutside.rfl.regMove rfl rfl
  · exact .endEncode _ _ (.inr (.inl ⟨rfl, rfl, v, hv, rfl⟩)) rfl rfl
  · exact .endEncode _ _ (.inr (.inl ⟨rfl, rfl, v, hv, rfl⟩)) rfl rfl

/-- Every operation, of a HOST or placed by itself, that answers a next state. -/
theorem exec_effect {i : Instr} {s t : State} (h : exec i s = .next t) : OpEffect s t := by
  cases hi : i.isHostOp with
  | false =>
    have hk := exec_stage_keeps hi h
    exact ⟨⟨hk.regMove, hk.placed, fun hw => exec_stage_noW hi hw h⟩, hk.port.trans⟩
  | true =>
    cases i <;> simp only [Instr.isHostOp, Bool.false_eq_true] at hi
    case reset => cases h; exact .restart s _ _
    case nop => cases h; exact .reply s _ _
    case construct c => exact execConstruct_effect h
    case encode ch => exact execEncode_effect h
    case rsvd3 => cases h; exact .reply s _ _

end Sys2Proof.Machine
end

section
/-! SUPPORT. All that a clock edge can do, said once (44_pipeline_ops.md R216 to R221). -/

namespace Sys2Proof.Machine

/-- IN and the overflow mark are ones the input phase can have (44_pipeline_ops.md R218, R219). -/
def InputOk (full : Bool) (inp : List Int) : Prop :=
  (∀ x ∈ inp, IsByte x) ∧ inp.length ≤ Config.maxPayload ∧ (full = true → inp.length = Config.maxPayload)

/-- The state after an input beat has gone to IN. -/
def State.take (s : State) (full : Bool) (p : Pins) : State :=
  { s with inp := (takeByte full p.inKeep p.inData s.inp).1 }

/-- The overflow mark after an input beat. -/
def fullAfter (s : State) (full : Bool) (p : Pins) : Bool := (takeByte full p.inKeep p.inData s.inp).2

/-- An input beat takes its byte, then ends the input phase or goes on with it. -/
theorem inputBeat_eq (full : Bool) (p : Pins) (s : State) :
    inputBeat full p s = if p.inLast then chunkComplete (fullAfter s full p) (s.take full p)
      else .next ((s.take full p).setPort (.input (fullAfter s full p))) := rfl

/-- The port either is idle or shows a status: no ENCODE is in progress. -/
def Port.Quiet : Port → Prop
  | .idle => True
  | .input _ => False
  | .output _ => False
  | .status _ => True

/-- The state a clock edge at pins `p` leads to from `s`, one constructor for each thing an edge can be. -/
inductive EdgeStep (p : Pins) (s : State) : State → Prop
  /-- `rst` is 1. -/
  | rst : p.rst = true → EdgeStep p s (s.restart.reply .ok none)
  /-- No beat happens. -/
  | noBeat : EdgeStep p s s
  /-- A command beat whose operation ends at once. -/
  | command {i : Instr} {u : State} {q : Port} : s.port = .idle → i.isHostOp = true → exec i s = .next u →
      q.Quiet → EdgeStep p s (u.setPort q)
  /-- A command beat that begins the input phase of an ENCODE. -/
  | accepted : s.port = .idle → s.life = .configured → EdgeStep p s ((s.loadChunk []).setPort (.input false))
  /-- An input beat that is not the last. -/
  | byte {full : Bool} : s.port = .input full → p.inLast = false →
      EdgeStep p s ((s.take full p).setPort (.input (fullAfter s full p)))
  /-- The last input beat of a chunk that is encoded. -/
  | encoded {full : Bool} {u : State} : s.port = .input full → p.inLast = true →
      fullAfter s full p = false → encodeStages (s.take full p) = .done u → EdgeStep p s (u.setPort (.output 0))
  /-- The last input beat of a chunk that some stage refuses. -/
  | failed {full : Bool} {e : Status} {u : State} : s.port = .input full → p.inLast = true →
      fullAfter s full p = false → encodeStages (s.take full p) = .raised e u →
      EdgeStep p s ((u.endEncode e none).setPort (.status e))
  /-- The last input beat of an oversized chunk. -/
  | discarded {full : Bool} : s.port = .input full → p.inLast = true → fullAfter s full p = true →
      EdgeStep p s (((s.take full p).endEncode .oversizedPayload none).setPort (.status .oversizedPayload))
  /-- An output beat that is not the last. -/
  | drained {n : Nat} : s.port = .output n → n + 1 < s.out.length → EdgeStep p s (s.setPort (.output (n + 1)))
  /-- The last output beat. -/
  | sent {n : Nat} : s.port = .output n → n + 1 = s.out.length →
      EdgeStep p s ((s.endEncode .ok (some s.out)).setPort (.status .ok))
  /-- The status has been shown. -/
  | statusShown {c : Status} : s.port = .status c → EdgeStep p s (s.setPort .idle)

/-- An operation executed at a command beat and shown at the next clock. -/
theorem EdgeStep.of_showStatus {p : Pins} {s t : State} (i : Instr) (hi : i.isHostOp = true) (hp : s.port = .idle)
    (h : showStatus (exec i s) = .next t) : EdgeStep p s t := by
  obtain ⟨u, q, hu, rfl, rfl | ⟨c, rfl⟩⟩ := showStatus_next h
  · exact .command hp hi hu trivial
  · exact .command hp hi hu trivial

theorem commandBeat_edgeStep {p : Pins} {s t : State} (hp : s.port = .idle)
    (h : commandBeat p.cmdOp p.cmdCfg s = .next t) : EdgeStep p s t := by
  unfold commandBeat at h
  split_ifs at h
  · exact .of_showStatus .nop rfl hp h
  · exact .of_showStatus (.construct (unpackCfg p.cmdCfg)) rfl hp h
  · rcases s.life_cases with hl | hl <;> rw [hl] at h
    · exact .of_showStatus (.encode []) rfl hp (by rw [exec, execEncode_unconfigured [] hl]; exact h)
    · cases h
      exact .accepted hp hl
  · exact .of_showStatus .rsvd3 rfl hp h

theorem inputBeat_edgeStep {p : Pins} {s t : State} {full : Bool} (hp : s.port = .input full)
    (h : inputBeat full p s = .next t) : EdgeStep p s t := by
  rw [inputBeat_eq] at h
  split_ifs at h with hlast
  swap
  · cases h
    exact .byte hp (Bool.eq_false_iff.2 hlast)
  unfold chunkComplete at h
  split_ifs at h with hfull
  · cases h
    exact .discarded hp hlast hfull
  · cases hr : encodeStages (s.take full p) with
    | done u => rw [hr] at h; cases h; exact .encoded hp hlast (Bool.eq_false_iff.2 hfull) hr
    | raised e u => rw [hr] at h; cases h; exact .failed hp hlast (Bool.eq_false_iff.2 hfull) hr
    | stopped f => rw [hr] at h; cases h

theorem outputBeat_edgeStep {p : Pins} {s t : State} {n : Nat} (hp : s.port = .output n)
    (h : outputBeat n s = .next t) : EdgeStep p s t := by
  unfold outputBeat at h
  split_ifs at h with hn hlen
  · cases h
    exact .drained hp hn
  · cases h
    exact .sent hp (by omega)

/-- A clock edge that answers a next state is one of the things an edge can be. -/
theorem clockEdge_edgeStep {p : Pins} {s t : State} (h : clockEdge p s = .next t) : EdgeStep p s t := by
  unfold clockEdge at h
  split at h
  · cases h
    exact .rst ‹_›
  cases hp : s.port with
  | idle =>
    simp only [hp] at h
    split at h
    · exact commandBeat_edgeStep hp h
    · cases h; exact .noBeat
  | input full =>
    simp only [hp] at h
    split at h
    · exact inputBeat_edgeStep hp h
    · cases h; exact .noBeat
  | output n =>
    simp only [hp] at h
    split at h
    · exact outputBeat_edgeStep hp h
    · cases h; exact .noBeat
  | status c =>
    simp only [hp] at h
    cases h
    exact .statusShown hp

/-- The stages of an ENCODE, where they end in a state. -/
theorem encodeStages_ends {s u : State} (h : encodeStages s = .done u ∨ ∃ e, encodeStages s = .raised e u) :
    SameOutside s u ∧ (s.w = none → u.w = none) := by
  have hk := encodeStages_keeps s
  have hw := encodeStages_noW (s := s)
  rcases h with h | ⟨e, h⟩ <;> rw [h] at hk hw <;> exact ⟨hk, hw⟩

/-- A clock edge moves the persistent state in the ways of an operation, sets nothing placed and leaves no W. -/
theorem EdgeStep.effect {p : Pins} {s t : State} (h : EdgeStep p s t) : Effect s t := by
  cases h with
  | rst _ => exact (OpEffect.restart s _ _).toEffect
  | noBeat => exact .refl s
  | command _ _ hu _ => exact { exec_effect hu with }
  | accepted _ _ => exact { Effect.refl s with w := fun _ => rfl }
  | byte _ _ => exact { Effect.refl s with }
  | encoded _ _ _ hu =>
    obtain ⟨hk, hw⟩ := encodeStages_ends (.inl hu)
    exact ⟨hk.regMove, hk.placed, hw⟩
  | failed _ _ _ hu =>
    obtain ⟨hk, _⟩ := encodeStages_ends (.inr ⟨_, hu⟩)
    exact ⟨hk.regMove, hk.placed, fun _ => rfl⟩
  | discarded _ _ _ => exact { Effect.refl s with w := fun _ => rfl }
  | drained _ _ => exact { Effect.refl s with }
  | sent _ _ => exact { Effect.refl s with w := fun _ => rfl }
  | statusShown _ => exact { Effect.refl s with }

/-- Every step moves the persistent state in the ways of an operation, leaves no W, and sets nothing placed. -/
theorem step_effect {s t : State} (h : step s = .next t) :
    RegMove s t ∧ (s.w = none → t.w = none) ∧ (s.placed = none → t.placed = none) := by
  rcases step_cases h with ⟨r, i, _, _, _, hx⟩ | ⟨c, cs, i, _, _, _, _, _, hx⟩ | ⟨p, ps, _, hx⟩ | ⟨_, rfl⟩
  · have he := exec_effect hx
    exact ⟨he.regs, he.w, fun _ => he.placed⟩
  · have he := exec_effect hx
    exact ⟨he.regs, he.w, he.placed.trans⟩
  · have he := (clockEdge_edgeStep hx).effect
    exact ⟨he.regs, he.w, he.placed.trans⟩
  · exact ⟨(Effect.refl t).regs, id, id⟩

end Sys2Proof.Machine
end

section
/-! SUPPORT. Each part of the invariant along a step: the registers (10_state.md R25, R38) and the progress on the
ports (44_pipeline_ops.md R218 to R220). -/

namespace Sys2Proof.Machine

theorem RegMove.coherent {s t : State} (h : RegMove s t) (hs : s.Coherent) : t.Coherent := by
  unfold State.Coherent at *
  rcases h with ⟨hl, hc, hq⟩ | ⟨hl, hc, v, hv, hq⟩ | ⟨_, hl, c, hc, hq⟩ | ⟨hl, hc, hq⟩
  · rwa [hl, hc, hq]
  · rw [hl, hc, hq]
    rw [hv] at hs
    cases hlife : s.life with
    | unconfigured => rw [hlife] at hs; cases hs.2
    | configured => rw [hlife] at hs; exact ⟨hs.1, rfl⟩
  · rw [hl, hc, hq]; exact ⟨rfl, rfl⟩
  · rw [hl, hc, hq]; exact ⟨rfl, rfl⟩

theorem State.Coherent.values {s : State} (h : s.Coherent) (hl : s.life = .configured) :
    (∃ c, s.cfg = some c) ∧ ∃ v, s.seq = some v := by
  unfold State.Coherent at h
  rw [hl] at h
  exact ⟨Option.isSome_iff_exists.1 h.1, Option.isSome_iff_exists.1 h.2⟩

theorem portOk_of_quiet {s : State} (h : s.port.Quiet) : s.PortOk := by
  unfold State.PortOk
  cases hp : s.port <;> rw [hp] at h <;> trivial

theorem portOk_input {s : State} {full : Bool} (hp : s.port = .input full) :
    s.PortOk ↔ s.life = .configured ∧ InputOk full s.inp := by
  unfold State.PortOk
  rw [hp]
  rfl

theorem portOk_output {s : State} {n : Nat} (hp : s.port = .output n) :
    s.PortOk ↔ s.life = .configured ∧ n < s.out.length := by
  unfold State.PortOk
  rw [hp]

/-- The input phase keeps IN within MAX_PAYLOAD bytes, the overflow mark set only when it holds so many. -/
theorem takeByte_inputOk {full : Bool} {inp : List Int} (keep : Bool) (b : Byte) (h : InputOk full inp) :
    InputOk (takeByte full keep b inp).2 (takeByte full keep b inp).1 := by
  obtain ⟨hb, hn, hf⟩ := h
  unfold takeByte
  split_ifs with hk ho
  · refine ⟨hb, hn, fun _ => ?_⟩
    rcases Bool.or_eq_true_iff.1 ho with hfull | hle
    · exact hf hfull
    · exact le_antisymm hn (of_decide_eq_true hle)
  · have hlt : inp.length < Config.maxPayload := by
      simp only [Bool.or_eq_true, decide_eq_true_eq, not_or, not_le] at ho
      exact ho.2
    refine ⟨?_, by simpa using hlt, nofun⟩
    intro x hx
    rcases List.mem_append.1 hx with hx | hx
    · exact hb x hx
    · rw [List.mem_singleton.1 hx]; exact isByte_elemOf b
  · exact ⟨hb, hn, hf⟩

theorem transmitUnit_length_pos (c : Cfg) (v : Word16) (bs : List Byte) : 0 < (transmitUnit c v bs).length := by
  cases hw : c.whitening <;> cases hf : c.fec <;>
    simp [transmitUnit, encodedFrame, whitenedFrame, hw, hf, frameBytes, packHdr, fecBytes, encodeByte, xorBytes]

/-- An ENCODE whose stages end has something to send (44_pipeline_ops.md R220). -/
theorem encodeStages_done_out {s u : State} {c : Cfg} {v : Word16} (hc : s.cfg = some c) (hv : s.seq = some v)
    (hw : s.w = none) (h : encodeStages s = .done u) : 0 < u.out.length := by
  rcases encodeStages_cases hc hv hw with ⟨_, ho⟩ | ⟨bs, _, _, ho⟩ | ⟨_, _, _, ho⟩ | ⟨_, _, _, ho⟩ <;>
    cases ho.symm.trans h
  exact transmitUnit_length_pos c v bs

/-- A clock edge keeps the progress on the ports possible. -/
theorem EdgeStep.portOk {p : Pins} {s t : State} (h : EdgeStep p s t) (hs : s.Inv) : t.PortOk := by
  obtain ⟨hco, hw, hport⟩ := hs
  cases h with
  | noBeat => exact hport
  | command _ _ _ hq => exact portOk_of_quiet hq
  | accepted _ hl => exact (portOk_input rfl).2 ⟨hl, nofun, Nat.zero_le _, nofun⟩
  | byte hp _ =>
    obtain ⟨hl, hin⟩ := (portOk_input hp).1 hport
    exact (portOk_input rfl).2 ⟨hl, takeByte_inputOk _ _ hin⟩
  | @encoded full _ hp _ _ hu =>
    obtain ⟨hl, _⟩ := (portOk_input hp).1 hport
    obtain ⟨⟨c, hc⟩, v, hv⟩ := hco.values hl
    have hlife := (encodeStages_ends (.inl hu)).1.life
    have hout := encodeStages_done_out (s := s.take full p) hc hv hw hu
    exact (portOk_output rfl).2 ⟨hlife.trans hl, hout⟩
  | drained hp hn => exact (portOk_output rfl).2 ⟨((portOk_output hp).1 hport).1, hn⟩
  | rst _ => trivial
  | failed _ _ _ _ => trivial
  | discarded _ _ _ => trivial
  | sent _ _ => trivial
  | statusShown _ => trivial

theorem step_portOk {s t : State} (hs : s.Inv) (h : step s = .next t) : t.PortOk := by
  have idle (i : Instr) (u : State) (hp : u.port = .idle) (hx : exec i u = .next t) : t.PortOk :=
    portOk_of_quiet (by rw [(exec_effect hx).port hp]; trivial)
  rcases step_cases h with ⟨r, i, hp, _, _, hx⟩ | ⟨c, cs, i, hp, _, _, _, _, hx⟩ | ⟨p, ps, _, hx⟩ | ⟨_, rfl⟩
  · exact idle i { s with placed := none } hp hx
  · exact idle i { s with requests := cs } hp hx
  · exact (clockEdge_edgeStep hx).portOk hs
  · exact hs.2.2

/-- Settles O52: a step moves the registers so that they stay coherent, leaves no W, and keeps the progress on the
ports possible. -/
theorem everyStepKeepsTheInvariant : Obligations.EveryStepKeepsTheInvariant := by
  intro s t hs h
  obtain ⟨hregs, hw, _⟩ := step_effect h
  exact ⟨hregs.coherent hs.1, hw hs.2.1, step_portOk hs h⟩

end Sys2Proof.Machine
end

section
/-! SUPPORT. The counter in the hands of a HOST, and the values a CONSTRUCT writes (10_state.md R21, R29 to R32). -/

namespace Sys2Proof.Machine

/-- The seed as a number (10_state.md R30). -/
theorem seqSeed_toNat (b0 b1 : Byte) : (seqSeed b0 b1).toNat = 256 * b1.toNat + b0.toNat := by
  have h1 : b1.toNat * 2 ^ 8 < 2 ^ 16 := by have := b1.isLt; omega
  rw [seqSeed, BitVec.toNat_or, BitVec.toNat_shiftLeft, BitVec.toNat_setWidth_of_le (by decide),
    BitVec.toNat_setWidth_of_le (by decide), Nat.shiftLeft_eq, Nat.mod_eq_of_lt h1, ← Nat.shiftLeft_eq,
    ← Nat.shiftLeft_add_eq_or_of_lt b0.isLt, Nat.shiftLeft_eq]
  omega

/-- Settles O59: of the four ways the persistent state can move, each names its own change of SEQ. -/
theorem hostCannotSetTheCounter : Obligations.HostCannotSetTheCounter := by
  intro s t hpl h
  obtain ⟨hregs, _, hplaced⟩ := step_effect h
  refine ⟨hplaced hpl, ?_⟩
  rcases hregs with ⟨_, _, hq⟩ | ⟨hl, _, v, hv, hq⟩ | ⟨hl, hl', c, hc, hq⟩ | ⟨hl, _, hq⟩
  · exact .inl hq
  · exact .inr (.inl ⟨v, v + 1, hl, hv, hq, by simp [BitVec.toNat_add]⟩)
  · exact .inr (.inr (.inl ⟨c, _, hl, hl', hc, hq, seqSeed_toNat _ _⟩))
  · exact .inr (.inr (.inr ⟨hl, hq⟩))

/-- A number that fits an unsigned field is what the field holds (30_encoding.md R93). -/
theorem toNat_ofInt_of_fits {w : Nat} {x : Int} (h : FitsBits w x) : ((BitVec.ofInt w x).toNat : Int) = x := by
  obtain ⟨h0, h1⟩ := h
  rw [BitVec.toNat_ofInt, Int.toNat_of_nonneg (Int.emod_nonneg _ (by positivity))]
  exact Int.emod_eq_of_lt h0 (by exact_mod_cast h1)

theorem isCountField_iff (v : Int) : isCountField v = true ↔ FitsBits 16 v := decide_eq_true_iff

theorem isByteField_iff (v : Int) : isByteField v = true ↔ FitsBits 8 v := by
  rw [isByteField, decide_eq_true_iff]
  omega

theorem isBoolField_iff (v : Int) : isBoolField v = true ↔ FitsBits 1 v := by
  rw [isBoolField, decide_eq_true_iff]
  omega

/-- The range checks of CONSTRUCT are the widths of the fields (44_pipeline_ops.md R199, 30_encoding.md R93). -/
theorem validCfg_iff_fits (c : CfgFields) : validCfg c = true ↔ c.Fits := by
  simp only [validCfg, Bool.and_eq_true, isCountField_iff, isByteField_iff, isBoolField_iff]
  tauto

/-- A flag of 0 or 1 is what its register holds (30_encoding.md R91). -/
theorem toNat_decide_eq_one {x : Int} (h : FitsBits 1 x) : ((decide (x = 1)).toNat : Int) = x := by
  obtain rfl | rfl : x = 0 ∨ x = 1 := by omega
  · rfl
  · rfl

/-- Each register CONSTRUCT writes holds its operand field (44_pipeline_ops.md R198). -/
theorem cfgReg_cfgOf {c : CfgFields} (h : c.Fits) (i : Fin 9) : (cfgReg (cfgOf c) i : Int) = fieldReg c i := by
  obtain ⟨h0, h1, h2, h3, h4, h5, h6, h7, h8⟩ := h
  match i with
  | 0 => exact toNat_ofInt_of_fits h0
  | 1 => exact toNat_ofInt_of_fits h1
  | 2 => exact toNat_ofInt_of_fits h2
  | 3 => exact toNat_ofInt_of_fits h3
  | 4 => exact toNat_ofInt_of_fits h4
  | 5 => exact toNat_decide_eq_one h5
  | 6 => exact toNat_decide_eq_one h6
  | 7 => exact toNat_ofInt_of_fits h7
  | 8 => exact toNat_ofInt_of_fits h8

/-- Settles O10: a valid configuration fits its registers, so that each holds its operand field, and the seed is made
of registers 7 and 8. -/
theorem constructWritesEveryRegister : Obligations.ConstructWritesEveryRegister := by
  intro c s hl hv
  have hreg := cfgReg_cfgOf ((validCfg_iff_fits c).1 hv)
  refine ⟨cfgOf c, _, execConstruct_valid hl hv, hreg, ?_⟩
  have h0 : ((cfgOf c).seqByte0.toNat : Int) = c.seqByte0 := hreg 7
  have h1 : ((cfgOf c).seqByte1.toNat : Int) = c.seqByte1 := hreg 8
  rw [seqSeed_toNat, ← h0, ← h1]
  push_cast
  rfl

end Sys2Proof.Machine
end

section
/-! SUPPORT. Registers without a value, and the state at reset (10_state.md R25, R38). -/

namespace Sys2Proof.Machine

theorem runStage_withSeq_none {s : State} (h : s.seq = none) (k : Word16 → StageOut) :
    runStage (withSeq s k) = .fault .noValue := by
  rw [withSeq_none h, runStage_stopped]

/-- Settles O25: each of the five operations comes to a read of SEQ or CFG before anything else can end it. -/
theorem readingNoValueIsAFault : Obligations.ReadingNoValueIsAFault := by
  refine ⟨?counter, ?prepend, ?assemble, ?encode⟩
  case counter => exact fun s hv => ⟨runStage_withSeq_none hv _, runStage_withSeq_none hv _⟩
  case prepend =>
    intro s hc
    exact congrArg runStage (withCfg_none hc _)
  case assemble =>
    intro s hn hx
    exact congrArg runStage (assembleStage_noValue hn hx)
  case encode =>
    intro s ch hl hn hx
    exact execEncode_noValue hl hn hx

/-- Settles O51: at reset LIFE is UNCONFIGURED and the registers hold no value, every transient space is empty and the
ports are idle. -/
theorem invariantHoldsAtReset : Obligations.InvariantHoldsAtReset := by
  have inv : State.reset.Inv := ⟨⟨rfl, rfl⟩, rfl, trivial⟩
  have rest : State.reset.AtRest := ⟨rfl, rfl, rfl, rfl, rfl, rfl, rfl⟩
  exact ⟨inv, rest, rfl, rfl, rfl, rfl⟩

end Sys2Proof.Machine
end

section
/-! SUPPORT. The index map of the preamble and sync sections, before any encoded frame (20_memory.md R63;
43_preamble_sync.md R181 to R183). -/

namespace Sys2Proof.Machine

theorem rep_succ {α : Type} (n : Nat) (l : List α) : rep (n + 1) l = l ++ rep n l := rfl

@[simp] theorem length_rep {α : Type} (n : Nat) (l : List α) : (rep n l).length = n * l.length := by
  simp [rep]

/-- A repeated sequence holds element `i` of the sequence at place `i` of each copy. -/
theorem getElem?_rep {α : Type} {l : List α} {n i j : Nat} (hj : j < n) (hi : i < l.length) :
    (rep n l)[l.length * j + i]? = l[i]? := by
  induction n generalizing j with
  | zero => cases hj
  | succ n ih =>
    rw [rep_succ]
    cases j with
    | zero => rw [Nat.mul_zero, Nat.zero_add, List.getElem?_append_left hi]
    | succ j =>
      have next_copy : l.length * (j + 1) + i = l.length + (l.length * j + i) := by rw [Nat.mul_succ]; omega
      rw [next_copy, List.getElem?_append_right (Nat.le_add_right _ _), Nat.add_sub_cancel_left]
      exact ih (Nat.lt_of_succ_lt_succ hj)

/-- P preamble bytes and S sync words of two bytes. -/
@[simp] theorem length_linkPrefix (c : Cfg) :
    (linkPrefix c).length = c.preambleBytes.toNat + 2 * c.syncWords.toNat := by
  simp [linkPrefix, Nat.mul_comm 2]

/-- Below P stands the preamble byte (43_preamble_sync.md R182). -/
theorem getElem?_linkPrefix_preamble (c : Cfg) (e : List Byte) {i : Nat} (hi : i < c.preambleBytes.toNat) :
    (linkPrefix c ++ e)[i]? = some Config.preambleByte := by
  have h := getElem?_rep (l := [Config.preambleByte]) (i := 0) hi (by decide)
  rw [List.length_singleton, Nat.one_mul, Nat.add_zero] at h
  rw [linkPrefix, List.append_assoc, List.getElem?_append_left (by simpa using hi), h]
  rfl

/-- Byte `i` of sync word `j` stands at P + 2j + i (43_preamble_sync.md R183). -/
theorem getElem?_linkPrefix_sync (c : Cfg) (e : List Byte) {i j : Nat} (hj : j < c.syncWords.toNat) (hi : i < 2) :
    (linkPrefix c ++ e)[c.preambleBytes.toNat + 2 * j + i]? = [c.syncByte0, c.syncByte1][i]? := by
  have h : (rep c.syncWords.toNat [c.syncByte0, c.syncByte1])[2 * j + i]? = [c.syncByte0, c.syncByte1][i]? :=
    getElem?_rep hj hi
  rw [List.getElem?_append_left (by rw [length_linkPrefix]; omega), linkPrefix,
    List.getElem?_append_right (by rw [length_rep, List.length_singleton]; omega), ← h]
  congr 1
  rw [length_rep, List.length_singleton]
  omega

/-- From P + 2S on stands the encoded frame (43_preamble_sync.md R181). -/
theorem getElem?_linkPrefix_frame (c : Cfg) (e : List Byte) (k : Nat) :
    (linkPrefix c ++ e)[c.preambleBytes.toNat + 2 * c.syncWords.toNat + k]? = e[k]? := by
  rw [← length_linkPrefix, List.getElem?_append_right (Nat.le_add_right _ _), Nat.add_sub_cancel_left]

theorem execPrepend_eq {s : State} {c : Cfg} (h : s.cfg = some c) :
    execPrepend s = .next { s with out := linkPrefix c ++ s.enc } := by
  rw [execPrepend, prependStage_eq h, runStage_done]

/-- Settles O35: OUT is the preamble and sync sections of CFG followed by ENC, and each section has its own places. -/
theorem prependLaysOutTheTransmitUnit : Obligations.PrependLaysOutTheTransmitUnit := by
  refine ⟨fun _ _ => rfl, fun s c hc => ⟨linkPrefix c ++ s.enc, execPrepend_eq hc, ?length, ?preamble, ?sync, ?frame⟩⟩
  case length => rw [List.length_append, length_linkPrefix]
  case preamble => exact fun _ hi => getElem?_linkPrefix_preamble c s.enc hi
  case sync =>
    exact fun _ hj => ⟨getElem?_linkPrefix_sync c s.enc (i := 0) hj (by decide),
      getElem?_linkPrefix_sync c s.enc (i := 1) hj (by decide)⟩
  case frame => exact getElem?_linkPrefix_frame c s.enc

end Sys2Proof.Machine
end

section
/-! SUPPORT. The fields of CFGW and the word they are packed in (30_encoding.md R93), and the operand that carries a
configuration (log entry 4). -/

namespace Sys2Proof.Machine

/-- What is read from a field of CFGW fits the field. -/
theorem fitsBits_cfgwField (w : Cfgw) (lo len : Nat) : FitsBits len (cfgwField w lo len) :=
  ⟨Int.natCast_nonneg _, by rw [cfgwField]; exact_mod_cast (w.extractLsb' lo len).isLt⟩

theorem fits_unpackCfg (w : Cfgw) : (unpackCfg w).Fits :=
  have fits := fitsBits_cfgwField w
  ⟨fits _ _, fits _ _, fits _ _, fits _ _, fits _ _, fits _ _, fits _ _, fits _ _, fits _ _⟩

/-- The bits of a field, from the number read from it. -/
@[simp] theorem ofInt_cfgwField (w : Cfgw) (lo len : Nat) :
    BitVec.ofInt len (cfgwField w lo len) = w.extractLsb' lo len := by
  rw [cfgwField, BitVec.ofInt_natCast, BitVec.ofNat_toNat, BitVec.setWidth_eq]

/-- The nine fields lie side by side in CFGW and fill it. -/
theorem packCfg_unpackCfg (w : Cfgw) : packCfg (unpackCfg w) = w := by
  simp only [packCfg, unpackCfg, ofInt_cfgwField]
  simp (disch := omega) only [BitVec.extractLsb'_append_extractLsb'_eq_extractLsb']
  exact BitVec.extractLsb'_eq_self

/-- A field of CFGW that holds the bits of a number fitting it is read as that number. -/
theorem cfgwField_of_extract {w : Cfgw} {lo len : Nat} {x : Int} (hx : FitsBits len x)
    (h : w.extractLsb' lo len = BitVec.ofInt len x) : cfgwField w lo len = x := by
  rw [cfgwField, h, toNat_ofInt_of_fits hx]

theorem unpackCfg_packCfg {c : CfgFields} (h : c.Fits) : unpackCfg (packCfg c) = c := by
  obtain ⟨h0, h1, h2, h3, h4, h5, h6, h7, h8⟩ := h
  rw [unpackCfg, CfgFields.mk.injEq]
  refine ⟨cfgwField_of_extract h0 ?_, cfgwField_of_extract h1 ?_, cfgwField_of_extract h2 ?_,
    cfgwField_of_extract h3 ?_, cfgwField_of_extract h4 ?_, cfgwField_of_extract h5 ?_,
    cfgwField_of_extract h6 ?_, cfgwField_of_extract h7 ?_, cfgwField_of_extract h8 ?_⟩
  all_goals
    simp (disch := omega) only [packCfg, BitVec.extractLsb'_append_eq_of_le, BitVec.extractLsb'_append_eq_right,
      BitVec.extractLsb'_eq_self, Nat.reduceSub]

/-- The operand of a CONSTRUCT is read back, packed where it fits and as the nine integers where not (log entry 4). -/
@[simp] theorem operandFields_encodeCfg (c : CfgFields) : operandFields (encodeCfg c) = c := by
  rw [encodeCfg]
  split
  case isTrue h => exact unpackCfg_packCfg h
  case isFalse => rfl

/-- Settles O1: the code words of the tables are read as their operations, and an operand comes back as it was
given. -/
theorem encodedOperationDecodesToItself : Obligations.EncodedOperationDecodesToItself := by
  intro i
  cases i
  case construct c =>
    have hd : decode (encode (.construct c)) = .ok (.construct (operandFields (encodeCfg c))) := rfl
    rw [hd, operandFields_encodeCfg]
  all_goals rfl

/-- Settles O2: the fields fill the word, and each is wide enough for what it holds. -/
theorem configurationWordSurvivesUnpacking : Obligations.ConfigurationWordSurvivesUnpacking :=
  ⟨packCfg_unpackCfg, fun _ => unpackCfg_packCfg⟩

/-- Settles O13: a configuration is valid exactly if its fields fit their places in CFGW. -/
theorem validConfigurationIsWhatCfgwHolds : Obligations.ValidConfigurationIsWhatCfgwHolds := by
  intro c
  rw [validCfg_iff_fits]
  constructor
  · exact fun h => ⟨packCfg c, unpackCfg_packCfg h⟩
  · rintro ⟨w, rfl⟩
    exact fits_unpackCfg w

end Sys2Proof.Machine
end

section
/-! SUPPORT. The code words of the tables, whatever the operands an operation does not take (30_encoding.md R96 to
R101), and the status codes (R100, R103). -/

namespace Sys2Proof.Machine

/-- The CFGW of 95_test_vectors.md V24. -/
theorem unpackCfg_v24 : unpackCfg 0x089A4C00002D3910004 = ⟨4, 0x91, 0xd3, 2, 0xC0, 0, 0, 0x69, 0x22⟩ := by decide

theorem statusOfCode_statusCode (st : Status) : statusOfCode (statusCode st) = some st := by
  cases st <;> rfl

/-- Only the codes 5 to 7 stand for no status (30_encoding.md R103). -/
theorem statusOfCode_eq_none_iff (w : BitVec 3) : statusOfCode w = none ↔ 5 ≤ w.toNat := by
  revert w; decide

/-- Settles O3: a code word is read alone, but for the operand of CONSTRUCT, which is the CFGW of V24. -/
theorem codesOfTheTablesAreRead : Obligations.CodesOfTheTablesAreRead := by
  refine ⟨fun _ _ => rfl, fun _ _ => rfl, ?construct, fun _ _ => rfl, fun _ _ => rfl, fun _ _ => rfl, fun _ _ => rfl,
    fun _ _ => rfl, fun _ _ => rfl, fun _ _ => rfl, rfl, rfl, rfl, rfl, rfl, statusOfCode_statusCode,
    statusOfCode_eq_none_iff⟩
  case construct => exact fun _ => congrArg (fun c => Except.ok (Instr.construct c)) unpackCfg_v24

/-- Settles O9: both words are read alone, and RSVD3 replies and does nothing else. -/
theorem reservedCommandReturnsProtocolError : Obligations.ReservedCommandReturnsProtocolError :=
  ⟨fun _ _ => rfl, fun _ _ => rfl, fun _ => rfl⟩

end Sys2Proof.Machine
end

section
/-! SUPPORT. What a host operation returns (30_encoding.md R95). -/

namespace Sys2Proof.Machine

/-- A result of operation `i` holds a transmit unit exactly if it is that of an ENCODE that ended OK. -/
def UnitOnlyForOkEncode (i : Instr) (r : Result) : Prop :=
  r.unit.isSome = true ↔ r.status = .ok ∧ ∃ ch, i = .encode ch

/-- No operation but ENCODE returns a transmit unit. -/
theorem unitOnlyForOkEncode_of_ne_encode {i : Instr} (st : Status) (hi : ∀ ch, i ≠ .encode ch) :
    UnitOnlyForOkEncode i ⟨st, none⟩ :=
  ⟨nofun, fun ⟨_, ch, h⟩ => absurd h (hi ch)⟩

/-- An operation that fails returns no transmit unit. -/
theorem unitOnlyForOkEncode_of_ne_ok (i : Instr) {st : Status} (h : st ≠ .ok) : UnitOnlyForOkEncode i ⟨st, none⟩ :=
  ⟨nofun, fun hr => absurd hr.1 h⟩

theorem unitOnlyForOkEncode_encode_ok (ch : List Int) (u : List Byte) :
    UnitOnlyForOkEncode (.encode ch) ⟨.ok, some u⟩ :=
  ⟨fun _ => ⟨rfl, ch, rfl⟩, fun _ => rfl⟩

theorem execConstruct_result {c : CfgFields} {s t : State} (h : execConstruct c s = .next t) :
    ∃ st, t.result = some ⟨st, none⟩ := by
  rcases execConstruct_cases c s with ⟨_, ho⟩ | ⟨_, _, ho⟩ | ⟨_, _, ho⟩ <;> cases ho.symm.trans h
  all_goals exact ⟨_, rfl⟩

/-- The four ends of an ENCODE: only the one that is OK returns a transmit unit. -/
theorem execEncode_result {ch : List Int} {s t : State} (h : execEncode ch s = .next t) :
    ∃ r, t.result = some r ∧ UnitOnlyForOkEncode (.encode ch) r := by
  rcases execEncode_next h with ⟨_, rfl⟩ | ⟨_, _, rfl⟩ | ⟨c, v, bs, _, _, _, _, _, rfl⟩ |
    ⟨c, v, _, _, _, _, _, _, rfl⟩
  · exact ⟨_, rfl, unitOnlyForOkEncode_of_ne_ok _ (by decide)⟩
  · exact ⟨_, rfl, unitOnlyForOkEncode_of_ne_ok _ (by decide)⟩
  · exact ⟨_, rfl, unitOnlyForOkEncode_encode_ok ch _⟩
  · exact ⟨_, rfl, unitOnlyForOkEncode_of_ne_ok _ (by decide)⟩

/-- Settles O45: ENCODE by its four ends, the other host operations because each returns a status alone. -/
theorem resultHoldsAUnitOnlyForOkEncode : Obligations.ResultHoldsAUnitOnlyForOkEncode := by
  intro i s t hi h
  cases i <;> simp only [Instr.isHostOp, Bool.false_eq_true] at hi
  case reset => cases h; exact ⟨_, rfl, unitOnlyForOkEncode_of_ne_encode _ nofun⟩
  case nop => cases h; exact ⟨_, rfl, unitOnlyForOkEncode_of_ne_encode _ nofun⟩
  case construct c =>
    obtain ⟨st, hr⟩ := execConstruct_result h
    exact ⟨_, hr, unitOnlyForOkEncode_of_ne_encode st nofun⟩
  case encode ch => exact execEncode_result h
  case rsvd3 => cases h; exact ⟨_, rfl, unitOnlyForOkEncode_of_ne_encode _ nofun⟩

end Sys2Proof.Machine
end

section
/-! SUPPORT. The header of a frame as numbers, low byte first (40_frame_assembler.md R124; 30_encoding.md R80, R81,
R87, R88), and the sequence counter (R121, R122). -/

namespace Sys2Proof.Machine

theorem map_toNat_lowFirst (v : Word16) : (lowFirst v).map BitVec.toNat = [v.toNat % 256, v.toNat / 256] := by
  have low : (v.extractLsb' 0 8).toNat = v.toNat % 256 := BitVec.extractLsb'_toNat 0 8 v
  have high : (v.extractLsb' 8 8).toNat = v.toNat / 256 := by
    have := v.isLt
    rw [BitVec.extractLsb'_toNat, Nat.shiftRight_eq_div_pow]
    omega
  rw [lowFirst, List.map_cons, List.map_singleton, low, high]

theorem map_toNat_lengthField_w8 {n : Nat} (h : n ≤ 255) : (lengthField .w8 n).map BitVec.toNat = [n] := by
  rw [lengthField, List.map_singleton, BitVec.toNat_ofNat, Nat.mod_eq_of_lt (by omega)]

theorem map_toNat_lengthField_w16 {n : Nat} (h : n ≤ 65535) :
    (lengthField .w16 n).map BitVec.toNat = [n % 256, n / 256] := by
  have fits : n % 2 ^ 16 = n := Nat.mod_eq_of_lt (by omega)
  rw [lengthField, map_toNat_lowFirst, BitVec.toNat_ofNat, fits]

/-- Flags and sequence stand before the length field in both formats. -/
theorem map_toNat_packHdr (lw : LenWidth) (f : Byte) (v : Word16) (n : Nat) :
    (packHdr lw f v n).map BitVec.toNat =
      [f.toNat, v.toNat % 256, v.toNat / 256] ++ (lengthField lw n).map BitVec.toNat := by
  rw [packHdr, List.map_append, List.map_append, map_toNat_lowFirst, List.map_singleton, List.singleton_append]

theorem map_toNat_packHdr_w8 (f : Byte) (v : Word16) {n : Nat} (h : n ≤ 255) :
    (packHdr .w8 f v n).map BitVec.toNat = [f.toNat, v.toNat % 256, v.toNat / 256, n] := by
  rw [map_toNat_packHdr, map_toNat_lengthField_w8 h]
  rfl

theorem map_toNat_packHdr_w16 (f : Byte) (v : Word16) {n : Nat} (h : n ≤ 65535) :
    (packHdr .w16 f v n).map BitVec.toNat = [f.toNat, v.toNat % 256, v.toNat / 256, n % 256, n / 256] := by
  rw [map_toNat_packHdr, map_toNat_lengthField_w16 h]
  rfl

theorem map_elemOf_eq (bs : List Byte) : bs.map elemOf = (bs.map BitVec.toNat).map Nat.cast := by
  rw [List.map_map]
  rfl

/-- The frame of a legal chunk, its header as numbers (30_encoding.md R82). -/
theorem frameElems_eq (c : Cfg) (v : Word16) {xs : List Int} (h : xs.length ≤ 255) :
    frameElems c v xs = [(c.flags.toNat : Int), ((v.toNat % 256 : Nat) : Int), ((v.toNat / 256 : Nat) : Int),
      (xs.length : Int)] ++ xs := by
  rw [frameElems, map_elemOf_eq, Config.lenWidth, map_toNat_packHdr_w8 _ _ h]
  rfl

/-- Settles O23: a legal chunk with values in CFG and SEQ ends with its frame in FRAME, whose header the 8-bit format
lays out. -/
theorem assembleBuildsTheFrame : Obligations.AssembleBuildsTheFrame := by
  intro s c v hc hv hn
  rw [← frameElems_eq c v hn]
  exact congrArg runStage (assembleStage_legal hn hc hv)

/-- Settles O24: the size check raises before SEQ or CFG is read. -/
theorem assembleRejectsAnOversizedChunk : Obligations.AssembleRejectsAnOversizedChunk := by
  intro s h
  exact congrArg runStage (assembleStage_oversized h)

/-- Settles O26: both formats from the bytes of a 16-bit value, low byte first. -/
theorem headerFormatsAreLowByteFirst : Obligations.HeaderFormatsAreLowByteFirst :=
  ⟨fun f v _ => map_toNat_packHdr_w8 f v, fun f v _ => map_toNat_packHdr_w16 f v, rfl⟩

theorem seqReadStage_eq {s : State} {v : Word16} (h : s.seq = some v) :
    seqReadStage s = .done { s with seqVal := some v } :=
  readSeq_some h _

theorem seqIncStage_eq {s : State} {v : Word16} (h : s.seq = some v) :
    seqIncStage s = .done { s with seq := some (v + 1) } :=
  withSeq_some h _

/-- Settles O21: the word is read alone, and the counter with a value is returned. -/
theorem seqReadReturnsTheCounter : Obligations.SeqReadReturnsTheCounter := by
  refine ⟨fun _ _ => rfl, fun s v hv => ?_⟩
  exact congrArg runStage (seqReadStage_eq hv)

/-- Settles O22: the word is read alone, and the successor of a 16-bit value wraps at 65536. -/
theorem seqIncStepsTheCounter : Obligations.SeqIncStepsTheCounter := by
  refine ⟨fun _ _ => rfl, fun s v hv => ⟨v + 1, ?wraps, ?next⟩⟩
  case wraps => exact BitVec.toNat_add v 1
  case next => exact congrArg runStage (seqIncStage_eq hv)

end Sys2Proof.Machine
end

section
/-! SUPPORT. The whitener byte by byte (41_whitener.md R146, R147), the bits of its register and the 511 values the
register runs through (R145, R148). -/

namespace Sys2Proof.Machine

open Function (minimalPeriod IsPeriodicPt)

theorem length_whitenWith (key : Nat → Byte) (xs : List Int) : (whitenWith key xs).length = xs.length := by
  induction xs generalizing key with
  | nil => rfl
  | cons x xs ih => rw [whitenWith, List.length_cons, ih, List.length_cons]

theorem getElem?_whitenWith (key : Nat → Byte) (xs : List Int) (i : Nat) :
    (whitenWith key xs)[i]? = xs[i]?.map (xorElem · (key i)) := by
  induction xs generalizing key i with
  | nil => rfl
  | cons x xs ih =>
    cases i with
    | zero => rfl
    | succ i => exact ih _ i

/-- Settles O27: FRAME becomes WHITEN(FRAME), whose element at an index is XORed with the key byte of that index. -/
theorem whitenXorsEachByteWithItsKey : Obligations.WhitenXorsEachByteWithItsKey := by
  refine ⟨fun _ _ => rfl, fun s => ⟨whitenSeq s.frame, congrArg runStage (whitenStage_eq s), ?length, ?bytes⟩⟩
  case length => exact length_whitenWith _ _
  case bytes =>
    intro i b hb
    rw [whitenSeq, getElem?_whitenWith, hb, Option.map_some, xorElem_elemOf]

theorem getLsbD_lfsrShift (w : Lfsr) (k : Nat) :
    (lfsrShift w).getLsbD k =
      if k < 8 then w.getLsbD (k + 1) else (BitVec.ofBool (w.getLsbD 0 ^^ w.getLsbD 5)).getLsbD (k - 8) := by
  rw [lfsrShift, BitVec.getLsbD_append, BitVec.getLsbD_extractLsb']
  split
  case isTrue h => simp [h, Nat.add_comm]
  case isFalse => rfl

/-- Settles O29: the two halves of the shifted register, and the first 120 shifts computed. -/
theorem whiteningRegisterIsPn9 : Obligations.WhiteningRegisterIsPn9 := by
  refine ⟨rfl, fun w => ⟨?feedback, fun k => ?moved⟩, ?table⟩
  case feedback => exact (getLsbD_lfsrShift w 8).trans (by simp)
  case moved => rw [getLsbD_lfsrShift, if_pos k.isLt]
  case table => decide

theorem lfsrShifts_eq_iterate (n : Nat) (w : Lfsr) : lfsrShifts n w = lfsrShift^[n] w := by
  induction n generalizing w with
  | zero => rfl
  | succ n ih => exact ih (lfsrShift w)

/-- The values in W before every 73rd of the 511 = 7 * 73 shifts of a period. -/
def lfsrEvery73 : Fin 7 → Lfsr := ![0x1FF, 0x13D, 0x00B, 0x1F4, 0x0C9, 0x0C2, 0x136]

theorem lfsrShifts_lfsrEvery73 (i : Fin 7) : lfsrShifts 73 (lfsrEvery73 i) = lfsrEvery73 (i + 1) := by
  revert i
  decide +kernel

/-- The seed comes back after 511 shifts. -/
theorem isPeriodicPt_lfsrSeed : IsPeriodicPt lfsrShift 511 Config.lfsrSeed := by
  have h : lfsrShifts (73 + 73 + 73 + 73 + 73 + 73 + 73) (lfsrEvery73 0) = lfsrEvery73 0 := by
    simp only [lfsrShifts_add, lfsrShifts_lfsrEvery73]
    rfl
  exact (lfsrShifts_eq_iterate _ _).symm.trans h

theorem not_isPeriodicPt_lfsrSeed_7 : ¬ IsPeriodicPt lfsrShift 7 Config.lfsrSeed := by
  decide

theorem not_isPeriodicPt_lfsrSeed_73 : ¬ IsPeriodicPt lfsrShift 73 Config.lfsrSeed := by
  intro h
  have h73 : lfsrEvery73 0 = lfsrEvery73 1 :=
    h.symm.trans ((lfsrShifts_eq_iterate _ _).symm.trans (lfsrShifts_lfsrEvery73 0))
  exact absurd h73 (by decide)

/-- The least period of the seed divides 511 = 7 * 73, and neither 7 nor 73 is a period. -/
theorem minimalPeriod_lfsrSeed : minimalPeriod lfsrShift Config.lfsrSeed = 511 := by
  have period (n : Nat) : minimalPeriod lfsrShift Config.lfsrSeed ∣ n ↔ IsPeriodicPt lfsrShift n Config.lfsrSeed :=
    Function.isPeriodicPt_iff_minimalPeriod_dvd.symm
  have h511 := (period 511).2 isPeriodicPt_lfsrSeed
  have h7 := mt (period 7).1 not_isPeriodicPt_lfsrSeed_7
  have h73 := mt (period 73).1 not_isPeriodicPt_lfsrSeed_73
  have divisors : minimalPeriod lfsrShift Config.lfsrSeed ∈ Nat.divisors 511 := by simpa using h511
  rw [show Nat.divisors 511 = {1, 7, 73, 511} by decide] at divisors
  simp only [Finset.mem_insert, Finset.mem_singleton] at divisors
  rcases divisors with h | h | h | h
  · exact absurd (h ▸ one_dvd 7) h7
  · exact absurd (h ▸ dvd_rfl) h7
  · exact absurd (h ▸ dvd_rfl) h73
  · exact h

/-- 0 is kept by a shift, so that the seed could not come back from it. -/
theorem lfsrShifts_lfsrSeed_ne_zero (n : Nat) : lfsrShifts n Config.lfsrSeed ≠ 0 := by
  rw [lfsrShifts_eq_iterate]
  intro h
  have back : lfsrShift^[510 * n + n] Config.lfsrSeed = Config.lfsrSeed := by
    have := isPeriodicPt_lfsrSeed.const_mul n
    rwa [Nat.mul_comm, Nat.succ_mul] at this
  rw [Function.iterate_add_apply, h, Function.iterate_fixed rfl] at back
  exact absurd back (by decide)

/-- The 511 shifts of a period give as many different values, which are all there are but 0. -/
theorem exists_lfsrShifts_lfsrSeed_eq {w : Lfsr} (hw : w ≠ 0) : ∃ n < 511, lfsrShifts n Config.lfsrSeed = w := by
  have inj : Set.InjOn (lfsrShifts · Config.lfsrSeed) (Finset.range 511) := by
    simpa [lfsrShifts_eq_iterate, minimalPeriod_lfsrSeed, Set.InjOn] using
      Function.iterate_injOn_Iio_minimalPeriod (f := lfsrShift) (x := Config.lfsrSeed)
  have card : (Finset.univ.erase (0 : Lfsr)).card ≤ (Finset.range 511).card := by
    simp [← FinEnum.card_eq_fintypeCard]
  have surj := Finset.surjOn_of_injOn_of_card_le (t := Finset.univ.erase (0 : Lfsr)) _
    (fun n _ => by simpa using lfsrShifts_lfsrSeed_ne_zero n) inj card
  simpa using surj (by simpa using hw : w ∈ _)

/-- 511 bytes take eight periods of the register. -/
theorem keyByte_add_511 (i : Nat) : keyByte (i + 511) = keyByte i := by
  have period : lfsrShifts (Config.shiftsPerByte * 511) Config.lfsrSeed = Config.lfsrSeed := by
    rw [lfsrShifts_eq_iterate]
    exact isPeriodicPt_lfsrSeed.const_mul _
  rw [keyByte, Nat.mul_add, Nat.add_comm, lfsrShifts_add, period, keyByte]

/-- Settles O30: the seed comes back after 511 shifts and not before. -/
theorem keyBytesHavePeriod511 : Obligations.KeyBytesHavePeriod511 :=
  ⟨lfsrShifts_lfsrSeed_ne_zero, fun _ => exists_lfsrShifts_lfsrSeed_eq, keyByte_add_511⟩

end Sys2Proof.Machine
end

section
/-! SUPPORT. FEC_ENCODE byte by byte (42_fec_encoder.md R164), its outcomes on frames with and without a non-byte
element (R169), and the four transform modes (R173). -/

namespace Sys2Proof.Machine

theorem fecBytes_cons (b : Byte) (bs : List Byte) :
    fecBytes (b :: bs) = codeword (highNibble b) :: codeword (lowNibble b) :: fecBytes bs := rfl

@[simp] theorem length_fecBytes (bs : List Byte) : (fecBytes bs).length = 2 * bs.length := by
  induction bs with
  | nil => rfl
  | cons b bs ih => rw [fecBytes_cons, List.length_cons, List.length_cons, ih, List.length_cons, Nat.mul_succ]

@[simp] theorem length_xorBytes (key : Nat → Byte) (bs : List Byte) : (xorBytes key bs).length = bs.length := by
  induction bs generalizing key with
  | nil => rfl
  | cons b bs ih => rw [xorBytes, List.length_cons, ih, List.length_cons]

/-- The codewords of byte `i` stand at the places `2 * i`, for its high nibble, and `2 * i + 1`. -/
theorem getElem?_fecBytes {bs : List Byte} {i : Nat} {b : Byte} (h : bs[i]? = some b) :
    (fecBytes bs)[2 * i]? = some (codeword (highNibble b)) ∧
      (fecBytes bs)[2 * i + 1]? = some (codeword (lowNibble b)) := by
  induction bs generalizing i with
  | nil => cases h
  | cons a as ih =>
    cases i with
    | zero => cases h; exact ⟨rfl, rfl⟩
    | succ i => exact ih h

/-- The elements that are no byte, as the statements write them. -/
theorem not_isByte_iff (x : Int) : ¬ IsByte x ↔ x < 0 ∨ 255 < x := by
  rw [isByte_iff]
  omega

theorem exists_not_isByte {xs : List Int} (h : ∃ x ∈ xs, x < 0 ∨ 255 < x) : ∃ x ∈ xs, ¬ IsByte x := by
  simpa only [not_isByte_iff] using h

theorem whitenedStage_eq (s : State) :
    whitenedStage s = fecBypassStage { s with frame := whitenSeq s.frame, w := none } := by
  rw [whitenedStage, whitenStage_eq, andThen_done]

theorem bothStage_eq (s : State) :
    bothStage s = fecEncodeStage { s with frame := whitenSeq s.frame, w := none } := by
  rw [bothStage, whitenStage_eq, andThen_done]

/-- Settles O31: a byte gives two codewords wherever it stands; the two ends of FEC_ENCODE are those of its stage. -/
theorem fecEncodeWritesTwoCodewordsPerByte : Obligations.FecEncodeWritesTwoCodewordsPerByte := by
  refine ⟨fun _ _ => rfl, fun s bs hf => ?bytes, fun s hx => ?nonByte⟩
  case bytes =>
    exact ⟨fecBytes bs, congrArg runStage (fecEncodeStage_bytes hf), length_fecBytes bs, fun _ _ => getElem?_fecBytes⟩
  case nonByte => exact congrArg runStage (fecEncodeStage_nonByte (exists_not_isByte hx))

/-- Settles O36: a frame of bytes whitens to the bytes XORed with the key, which are a frame of bytes for the
second stage. -/
theorem transformModesEncodeTheFrame : Obligations.TransformModesEncodeTheFrame := by
  intro s bs hf
  have hw : whitenSeq s.frame = (xorBytes keyByte bs).map elemOf := by rw [hf, whitenSeq_map]
  refine ⟨?identity, ?whitened, ?fec, ?both, length_xorBytes _ bs, length_fecBytes bs, ?lengthBoth⟩
  case identity => exact congrArg runStage (fecBypassStage_bytes hf)
  case whitened =>
    have h := whitenedStage_eq s
    rw [hw, fecBypassStage_bytes rfl] at h
    exact congrArg runStage h
  case fec => exact congrArg runStage (fecEncodeStage_bytes hf)
  case both =>
    have h := bothStage_eq s
    rw [hw, fecEncodeStage_bytes rfl] at h
    exact congrArg runStage h
  case lengthBoth => rw [length_fecBytes, length_xorBytes]

/-- Settles O37: whitening keeps a non-byte element, which stops the bypass and makes FEC_ENCODE raise. -/
theorem transformModesOfANonByteFrame : Obligations.TransformModesOfANonByteFrame := by
  intro s h
  have hx := exists_not_isByte h
  have hw := whitenSeq_nonByte hx
  refine ⟨?identity, ?whitened, ?fec, ?both⟩
  case identity => exact congrArg runStage (fecBypassStage_nonByte hx)
  case whitened => exact congrArg runStage ((whitenedStage_eq s).trans (fecBypassStage_nonByte hw))
  case fec => exact congrArg runStage (fecEncodeStage_nonByte hx)
  case both => exact congrArg runStage ((bothStage_eq s).trans (fecEncodeStage_nonByte hw))

end Sys2Proof.Machine
end

section
/-! SUPPORT. The codeword bit by bit, and as a linear code: two codewords differ where a third has ones
(42_fec_encoder.md R166 to R168). -/

namespace Sys2Proof.Machine

theorem getLsbD_codeword (n : Nibble) (k : Nat) :
    (codeword n).getLsbD k =
      if k = 0 then n.getLsbD 0 ^^ n.getLsbD 1 ^^ n.getLsbD 3
      else if k = 1 then n.getLsbD 0 ^^ n.getLsbD 2 ^^ n.getLsbD 3
      else if k = 2 then n.getLsbD 1 ^^ n.getLsbD 2 ^^ n.getLsbD 3
      else if k = 3 then n.getLsbD 0 ^^ n.getLsbD 1 ^^ n.getLsbD 2
      else n.getLsbD (k - 4) := by
  rw [codeword]
  rcases k with _ | _ | _ | _ | k
  all_goals (simp only [BitVec.getLsbD_append]; simp)

theorem highNibble_codeword (n : Nibble) : highNibble (codeword n) = n := by
  apply BitVec.eq_of_getLsbD_eq
  intro k hk
  rw [highNibble, BitVec.getLsbD_extractLsb', Nat.add_comm, getLsbD_codeword]
  simp [hk]

/-- CW is linear: every bit of it is an XOR of data bits. -/
theorem codeword_xor (m n : Nibble) : codeword m ^^^ codeword n = codeword (m ^^^ n) := by
  apply BitVec.eq_of_getLsbD_eq
  intro k _
  simp only [BitVec.getLsbD_xor, getLsbD_codeword]
  split_ifs <;> simp only [Bool.xor_assoc, Bool.xor_left_comm]

/-- The number of ones in a byte. -/
def weight (b : Byte) : Nat := (List.range 8).countP fun i => b.getLsbD i

theorem weight_codeword_even : ∀ n : Nibble, weight (codeword n) % 2 = 0 := by
  decide

theorem four_le_weight_codeword : ∀ n : Nibble, n ≠ 0 → 4 ≤ weight (codeword n) := by
  decide

/-- Settles O32: the parity equations are four bits of the codeword, and the distance of two codewords is the weight
of the codeword of another nibble, which is not 0. -/
theorem codewordIsExtendedHamming : Obligations.CodewordIsExtendedHamming := by
  refine ⟨fun n => ⟨highNibble_codeword n, ?p0, ?p1, ?p2, ?p3, weight_codeword_even n⟩, ?table, ?distance⟩
  case p0 => exact getLsbD_codeword n 0
  case p1 => exact getLsbD_codeword n 1
  case p2 => exact getLsbD_codeword n 2
  case p3 => exact getLsbD_codeword n 3
  case table => decide
  case distance =>
    intro m n hmn
    rw [codeword_xor]
    exact four_le_weight_codeword _ (mt BitVec.xor_eq_zero_iff.1 hmn)

end Sys2Proof.Machine
end

section
/-! SUPPORT. An operation made the next one by its table word, and what the host operations that read no chunk answer
(44_pipeline_ops.md R196 to R203). -/

namespace Sys2Proof.Machine

theorem tableRequest_of_decodeTableWord {nbits w : Nat} {i : Instr} (h : decodeTableWord nbits w = some i) :
    ∃ r, tableRequest nbits w = some r ∧ decode r = .ok i := by
  unfold decodeTableWord at h
  split at h
  · next r hr =>
    split at h
    · next j hj => cases h; exact ⟨r, hr, hj⟩
    · cases h
  · cases h

/-- The step after `placeNext` runs the request placed, as a command of the HOST or by itself. -/
theorem step_placeNext (s : State) (r : Request) :
    step (placeNext s r) = runRequest r { s with port := .idle, placed := none } := by
  cases hr : hostRequestOf r with
  | some h =>
    rw [placeNext_host s hr, hostRequestOf_eq_some hr]
    exact step_of_request rfl rfl rfl
  | none =>
    rw [placeNext_internal s hr]
    exact step_of_placed rfl rfl

/-- Settles O6: a table word that decodes is a request, and the next step runs the request placed. -/
theorem placedTableWordRunsNext : Obligations.PlacedTableWordRunsNext := by
  intro s nbits w i h
  obtain ⟨r, hr, hd⟩ := tableRequest_of_decodeTableWord h
  rw [State.withFetchWord, hr]
  exact (step_placeNext s r).trans (runRequest_ok _ hd)

/-- Settles O8: the word is read alone, and NOP replies and does nothing else. -/
theorem nopReturnsOkAndWritesNothing : Obligations.NopReturnsOkAndWritesNothing :=
  ⟨fun _ _ => rfl, fun _ => rfl⟩

/-- Settles O11: both refusals reply alone, so that LIFE stays UNCONFIGURED after the second and a valid CONSTRUCT
is not refused. -/
theorem refusedConstructWritesNothing : Obligations.RefusedConstructWritesNothing := by
  refine ⟨fun c s hl => execConstruct_configured c hl, fun c s hl hv => ?_⟩
  refine ⟨s.reply .invalidConfiguration none, execConstruct_invalid hl hv, rfl, fun d hd => ?_⟩
  exact ⟨_, execConstruct_valid (s := s.reply _ _) hl hd, rfl, rfl⟩

/-- Settles O12: a field fits its width exactly if it passes the range check of its type. -/
theorem validConfigurationIsTheRangeChecks : Obligations.ValidConfigurationIsTheRangeChecks := by
  intro c
  rw [validCfg_iff_fits]
  constructor <;> intro h <;> omega

/-- Settles O14: the lifecycle is tested before the chunk is read. -/
theorem encodeWhileUnconfiguredIsRefused : Obligations.EncodeWhileUnconfiguredIsRefused :=
  fun ch _ hl => execEncode_unconfigured ch hl

end Sys2Proof.Machine
end

section
/-! SUPPORT. An ENCODE as its stages, executed one by one as operations (44_pipeline_ops.md R203, R204). -/

namespace Sys2Proof.Machine

/-- Settles O16: an ENCODE of a legal chunk of bytes, where the successor of a 16-bit value wraps at 65536. -/
theorem legalChunkReturnsItsTransmitUnit : Obligations.LegalChunkReturnsItsTransmitUnit := by
  intro s c v bs hl hc hv hn
  exact ⟨v + 1, by simp [BitVec.toNat_add], execEncode_bytes hl hc hv hn⟩

theorem andThen_assoc (r : StageOut) (j k : State → StageOut) :
    (r.andThen j).andThen k = r.andThen fun s => (j s).andThen k := by
  cases r <;> rfl

theorem andThen_eq_done {r : StageOut} {k : State → StageOut} {t : State} :
    r.andThen k = .done t ↔ ∃ u, r = .done u ∧ k u = .done t := by
  cases r <;> simp

/-- The stages of an ENCODE between ASSEMBLE and PREPEND: the transform its two booleans select
(44_pipeline_ops.md R204). -/
def transformStage (c : Cfg) (s : State) : StageOut :=
  (if c.whitening then whitenStage s else .done s).andThen fun u => if c.fec then fecEncodeStage u else fecBypassStage u

theorem encodeStages_eq (s : State) :
    encodeStages s =
      (assembleStage s).andThen fun u => withCfg u fun c => (transformStage c u).andThen prependStage := by
  simp only [encodeStages, transformStage, andThen_assoc]

/-- The mode operation the two booleans select is their transform (30_encoding.md R98). -/
theorem exec_modeOp (c : Cfg) (s : State) : exec (modeOp c) s = runStage (transformStage c s) := by
  unfold modeOp modeWord transformStage
  cases c.fec <;> cases c.whitening <;> rfl

/-- Stages of an ENCODE that all go on lead where they lead as operations. -/
theorem runOps_of_encodeStages_done {s t : State} {c : Cfg} (hc : s.cfg = some c) (h : encodeStages s = .done t) :
    runOps [.assemble, modeOp c, .prepend] s = .next t := by
  rw [encodeStages_eq, andThen_eq_done] at h
  obtain ⟨u, hu, h⟩ := h
  have hk := assembleStage_keeps s
  rw [hu] at hk
  rw [withCfg_some (hk.cfg.trans hc), andThen_eq_done] at h
  obtain ⟨x, hx, ht⟩ := h
  have assemble : exec .assemble s = .next u := congrArg runStage hu
  have transform : exec (modeOp c) u = .next x := (exec_modeOp c u).trans (congrArg runStage hx)
  have prepend : exec .prepend x = .next t := congrArg runStage ht
  simp only [runOps, assemble, transform, prepend]

/-- Settles O20: the stages of a legal chunk of bytes all go on, to the state the three operations lead to. -/
theorem encodeIsItsStagesInOrder : Obligations.EncodeIsItsStagesInOrder := by
  intro s c v bs hl hc hv hn
  have stages := encodeStages_bytes (s := s.loadChunk (bs.map elemOf)) rfl hn hc hv rfl
  exact ⟨_, runOps_of_encodeStages_done hc stages, (execEncode_configured _ hl).trans (congrArg finishEncode stages)⟩

end Sys2Proof.Machine
end

section
/-! SUPPORT. From a state that meets the invariant every operation of a HOST and every clock edge answers a next state
(44_pipeline_ops.md R196, 60_exceptions.md R277). -/

namespace Sys2Proof.Machine

/-- The outcome is a next state. -/
def Answers (r : Host.Outcome State Fault Refusal) : Prop := ∃ t, r = .next t

theorem answers_next (t : State) : Answers (.next t) := ⟨t, rfl⟩

theorem Answers.showStatus {r : Host.Outcome State Fault Refusal} (h : Answers r) : Answers (showStatus r) := by
  obtain ⟨t, rfl⟩ := h
  cases hr : t.result with
  | some res => exact ⟨t.setPort (.status res.status), by simp only [Machine.showStatus, hr]⟩
  | none => exact ⟨t.setPort .idle, by simp only [Machine.showStatus, hr]⟩

theorem execConstruct_answers (c : CfgFields) (s : State) : Answers (execConstruct c s) := by
  rcases execConstruct_cases c s with ⟨_, h⟩ | ⟨_, _, h⟩ | ⟨_, _, h⟩ <;> exact ⟨_, h⟩

/-- Of the four ends of the stages only the bypass of a non-byte element stops (60_exceptions.md R263, U27). -/
theorem execEncode_answers {s : State} {ch : List Int} (hs : s.Coherent)
    (hb : ∀ c, s.cfg = some c → c.fec = false → ∀ x ∈ ch, IsByte x) : Answers (execEncode ch s) := by
  rcases s.life_cases with hl | hl
  · exact ⟨_, execEncode_unconfigured ch hl⟩
  obtain ⟨⟨c, hc⟩, v, hv⟩ := hs.values hl
  rw [execEncode_configured ch hl]
  rcases encodeStages_cases (s := s.loadChunk ch) hc hv rfl with
    ⟨_, h⟩ | ⟨_, _, _, h⟩ | ⟨_, _, _, h⟩ | ⟨_, hf, ⟨x, hx, hn⟩, _⟩
  · exact ⟨_, congrArg finishEncode h⟩
  · exact ⟨_, congrArg finishEncode h⟩
  · exact ⟨_, congrArg finishEncode h⟩
  · exact absurd (hb c hc hf x hx) hn

theorem exec_hostOp_answers {s : State} {i : Instr} (hs : s.Coherent) (hi : i.isHostOp = true)
    (hb : ∀ ch c, i = .encode ch → s.cfg = some c → c.fec = false → ∀ x ∈ ch, IsByte x) : Answers (exec i s) := by
  cases i <;> simp only [Instr.isHostOp, Bool.false_eq_true] at hi
  case reset => exact answers_next _
  case nop => exact answers_next _
  case construct c => exact execConstruct_answers c s
  case encode ch => exact execEncode_answers hs fun c => hb ch c rfl
  case rsvd3 => exact answers_next _

theorem commandBeat_answers (op : BitVec 2) (cfg : Cfgw) (s : State) : Answers (commandBeat op cfg s) := by
  unfold commandBeat
  split_ifs
  · exact (answers_next _).showStatus
  · exact (execConstruct_answers _ s).showStatus
  · cases s.life
    · exact (answers_next _).showStatus
    · exact answers_next _
  · exact (answers_next _).showStatus

/-- The chunk the ports have taken is one of at most 255 bytes, so its stages all go on. -/
theorem inputBeat_answers {s : State} {full : Bool} (p : Pins) (hs : s.Inv) (hp : s.port = .input full) :
    Answers (inputBeat full p s) := by
  obtain ⟨hco, hw, hport⟩ := hs
  obtain ⟨hl, hin⟩ := (portOk_input hp).1 hport
  obtain ⟨⟨c, hc⟩, v, hv⟩ := hco.values hl
  rw [inputBeat_eq]
  split_ifs
  swap
  · exact answers_next _
  unfold chunkComplete
  split_ifs
  · exact (answers_next _).showStatus
  obtain ⟨hbyte, hlen, _⟩ := takeByte_inputOk p.inKeep p.inData hin
  obtain ⟨bs, hbs⟩ := exists_bytes hbyte
  have hn : bs.length ≤ 255 := by rwa [hbs, List.length_map] at hlen
  rw [encodeStages_bytes (s := s.take full p) hbs hn hc hv hw]
  exact answers_next _

theorem outputBeat_answers {s : State} {i : Nat} (h : i < s.out.length) : Answers (outputBeat i s) := by
  unfold outputBeat
  split_ifs
  · exact answers_next _
  · exact (answers_next _).showStatus

theorem clockEdge_answers {s : State} (p : Pins) (hs : s.Inv) : Answers (clockEdge p s) := by
  unfold clockEdge
  split
  · exact answers_next _
  cases hp : s.port with
  | idle =>
    dsimp only
    split
    · exact commandBeat_answers _ _ s
    · exact answers_next _
  | input full =>
    dsimp only
    split
    · exact inputBeat_answers p hs hp
    · exact answers_next _
  | output i =>
    dsimp only
    split
    · exact outputBeat_answers ((portOk_output hp).1 hs.2.2).2
    · exact answers_next _
  | status c => exact answers_next _

/-- Settles O53: the registers hold values while CONFIGURED, the ports hold only bytes and the byte to present exists,
so that of all stops only the one on a non-byte element is left, and only by a chunk given whole. -/
theorem hostCannotStopTheMachine : Obligations.HostCannotStopTheMachine :=
  fun _ hs => ⟨fun p => clockEdge_answers p hs, fun _ hi hb => exec_hostOp_answers hs.1 hi hb⟩

end Sys2Proof.Machine
end

section
/-! SUPPORT. The output pins and the clock edge in each phase (44_pipeline_ops.md R215 to R221). -/

namespace Sys2Proof.Machine

theorem outPins_idle {s : State} (hp : s.port = .idle) : outPins s = ⟨true, false, none, none⟩ := by
  simp only [outPins, hp]

theorem outPins_input {s : State} {full : Bool} (hp : s.port = .input full) :
    outPins s = ⟨false, true, none, none⟩ := by
  simp only [outPins, hp]

theorem outPins_output {s : State} {i : Nat} (hp : s.port = .output i) :
    outPins s = ⟨false, false, (s.out[i]?).map fun b => (b, i + 1 == s.out.length), none⟩ := by
  simp only [outPins, hp]

theorem outPins_status {s : State} {c : Status} (hp : s.port = .status c) :
    outPins s = ⟨false, false, none, some (statusCode c)⟩ := by
  simp only [outPins, hp]

/-- No edge makes an output beat while out_valid is 0. -/
theorem outBeat_eq_none (p : Pins) {s : State} (h : (outPins s).out = none) : outBeat p s = none := by
  simp only [outBeat, h, ite_self]

/-- No edge makes an output beat while out_ready is 0. -/
theorem outBeat_of_not_ready {p : Pins} (s : State) (h : p.outReady = false) : outBeat p s = none := by
  simp only [outBeat, h, Bool.false_eq_true, if_false, ite_self]

theorem outBeat_of_ready {p : Pins} (s : State) (hr : p.rst = false) (h : p.outReady = true) :
    outBeat p s = (outPins s).out := by
  simp only [outBeat, hr, h, Bool.false_eq_true, if_false, if_true]

theorem clockEdge_idle {p : Pins} {s : State} (hr : p.rst = false) (hp : s.port = .idle) :
    clockEdge p s = if p.cmdValid then commandBeat p.cmdOp p.cmdCfg s else .next s := by
  simp only [clockEdge, hr, hp, Bool.false_eq_true, if_false]

theorem clockEdge_input {p : Pins} {s : State} {full : Bool} (hr : p.rst = false) (hp : s.port = .input full) :
    clockEdge p s = if p.inValid then inputBeat full p s else .next s := by
  simp only [clockEdge, hr, hp, Bool.false_eq_true, if_false]

theorem clockEdge_output {p : Pins} {s : State} {i : Nat} (hr : p.rst = false) (hp : s.port = .output i) :
    clockEdge p s = if p.outReady then outputBeat i s else .next s := by
  simp only [clockEdge, hr, hp, Bool.false_eq_true, if_false]

theorem clockEdge_status {p : Pins} {s : State} {c : Status} (hr : p.rst = false) (hp : s.port = .status c) :
    clockEdge p s = .next (s.setPort .idle) := by
  simp only [clockEdge, hr, hp, Bool.false_eq_true, if_false]

/-- Settles O55: the pins phase by phase, and the three phases in which the HOST can hold a beat back. -/
theorem pinsFollowThePhase : Obligations.PinsFollowThePhase := by
  refine ⟨fun s => ?pins, fun p s hr h => ?noBeat⟩
  case pins =>
    cases hp : s.port with
    | idle => simp [outPins_idle hp]
    | input full => simp [outPins_input hp]
    | output i => simp [outPins_output hp]
    | status c => simp [outPins_status hp, eq_comm]
  case noBeat =>
    rcases h with ⟨hp, hv⟩ | ⟨⟨full, hp⟩, hv⟩ | ⟨⟨i, hp⟩, hv⟩
    · exact ⟨by rw [clockEdge_idle hr hp, hv]; rfl, outBeat_eq_none p (by rw [outPins_idle hp])⟩
    · exact ⟨by rw [clockEdge_input hr hp, hv]; rfl, outBeat_eq_none p (by rw [outPins_input hp])⟩
    · exact ⟨by rw [clockEdge_output hr hp, hv]; rfl, outBeat_of_not_ready s hv⟩

end Sys2Proof.Machine
end

section
/-! SUPPORT. Runs of clock edges with the output beats and status pulses seen at them, and a command that makes no data
beat (44_pipeline_ops.md R217, R221). -/

namespace Sys2Proof.Machine

/-- The edges `ps` lead from `s` to `t`, with the output beats `out` and the status pulses `st`. -/
structure EdgesRun (ps : List Pins) (s t : State) (out : List (Byte × Bool)) (st : List (BitVec 3)) : Prop where
  run : runEdges ps s = .next t
  output : edgeOutput ps s = out
  status : edgeStatus ps s = st

theorem EdgesRun.single {p : Pins} {s t : State} (h : clockEdge p s = .next t) :
    EdgesRun [p] s t (outBeat p s).toList (outPins s).st.toList := by
  obtain ⟨hr, ho, hs⟩ := runEdges_cons [] h
  exact ⟨hr, ho.trans (List.append_nil _), hs.trans (List.append_nil _)⟩

/-- An edge at which neither an output beat nor a status pulse is seen. -/
theorem EdgesRun.silent {p : Pins} {s t : State} (h : clockEdge p s = .next t) (ho : outBeat p s = none)
    (hs : (outPins s).st = none) : EdgesRun [p] s t [] [] := by
  have hrun := EdgesRun.single h
  rwa [ho, hs] at hrun

theorem EdgesRun.append {ps qs : List Pins} {s t u : State} {out out' : List (Byte × Bool)}
    {st st' : List (BitVec 3)} (h : EdgesRun ps s t out st) (h' : EdgesRun qs t u out' st') :
    EdgesRun (ps ++ qs) s u (out ++ out') (st ++ st') := by
  obtain ⟨hr, ho, hs⟩ := runEdges_append ps qs h.run
  exact ⟨hr.trans h'.run, by rw [ho, h.output, h'.output], by rw [hs, h.status, h'.status]⟩

/-- The status clock: one pulse, and the ports are idle again (44_pipeline_ops.md R221). -/
theorem edgesRun_status {p : Pins} (t : State) (c : Status) (hr : p.rst = false) :
    EdgesRun [p] (t.setPort (.status c)) (t.setPort .idle) [] [statusCode c] := by
  have hrun := EdgesRun.single (clockEdge_status (s := t.setPort (.status c)) hr rfl)
  rwa [outBeat_eq_none p rfl] at hrun

theorem State.setPort_eq_self {t : State} {q : Port} (h : t.port = q) : t.setPort q = t := by
  subst h
  rfl

theorem showStatus_of_result {t : State} {r : Result} (h : t.result = some r) :
    showStatus (.next t) = .next (t.setPort (.status r.status)) := by
  simp only [showStatus, h]

/-- The command beats that execute their operation whole. -/
theorem commandBeat_eq_showStatus {s : State} {op : BitVec 2} {cfg : Cfgw} {i : Instr}
    (h : (op = 0b00 ∧ i = .nop) ∨ (op = 0b01 ∧ i = .construct (unpackCfg cfg)) ∨ (op = 0b11 ∧ i = .rsvd3) ∨
      (op = 0b10 ∧ s.life = .unconfigured ∧ ∃ ch, i = .encode ch)) :
    i.isHostOp = true ∧ Answers (exec i s) ∧ commandBeat op cfg s = showStatus (exec i s) := by
  rcases h with ⟨rfl, rfl⟩ | ⟨rfl, rfl⟩ | ⟨rfl, rfl⟩ | ⟨rfl, hl, ch, rfl⟩
  · exact ⟨rfl, answers_next _, rfl⟩
  · exact ⟨rfl, execConstruct_answers _ s, rfl⟩
  · exact ⟨rfl, answers_next _, rfl⟩
  · have refused : exec (.encode ch) s = .next (s.reply .protocolError none) := execEncode_unconfigured ch hl
    refine ⟨rfl, ⟨_, refused⟩, ?_⟩
    rw [refused]
    simp [commandBeat, hl]

/-- Settles O56: the command beat executes the operation, which keeps the ports idle and returns a status, and the
next edge is the status clock. -/
theorem portCommandEndsAtTheNextClock : Obligations.PortCommandEndsAtTheNextClock := by
  intro s command close i hp hrst hvalid hclose h
  obtain ⟨hi, ⟨t, ht⟩, hbeat⟩ := commandBeat_eq_showStatus h
  obtain ⟨r, hr, _⟩ := resultHoldsAUnitOnlyForOkEncode i s t hi ht
  have hidle : t.port = .idle := (exec_effect ht).port hp
  have hedge : clockEdge command s = .next (t.setPort (.status r.status)) := by
    rw [clockEdge_idle hrst hp, if_pos hvalid, hbeat, ht, showStatus_of_result hr]
  have hpins := outPins_idle hp
  have first := EdgesRun.silent hedge (outBeat_eq_none command (by rw [hpins])) (by rw [hpins])
  obtain ⟨run, output, status⟩ := first.append (edgesRun_status t r.status hclose)
  rw [State.setPort_eq_self hidle] at run
  exact ⟨t, r, ht, hr, run, output, status⟩

end Sys2Proof.Machine
end

section
/-! SUPPORT. The input phase of an ENCODE on the ports (44_pipeline_ops.md R218, R219). -/

namespace Sys2Proof.Machine

/-- IN after the bytes `k` have come: the first MAX_PAYLOAD of them (44_pipeline_ops.md R219, log entry 17). -/
def takenElems (k : List Byte) : List Int := (k.take Config.maxPayload).map elemOf

/-- The input phase of an ENCODE accepted in `s`, after the bytes `k` have come. -/
def State.receiving (s : State) (k : List Byte) : State :=
  (s.loadChunk (takenElems k)).setPort (.input (oversized k.length))

/-- The command beat of an ENCODE while CONFIGURED begins the input phase. -/
theorem commandBeat_encode {s : State} (cfg : Cfgw) (hl : s.life = .configured) :
    commandBeat 0b10 cfg s = .next (s.receiving []) := by
  unfold commandBeat
  rw [hl]
  rfl

theorem takenElems_eq {k : List Byte} (h : k.length ≤ Config.maxPayload) : takenElems k = k.map elemOf := by
  rw [takenElems, List.take_of_length_le h]

theorem length_takenElems (k : List Byte) : (takenElems k).length = min Config.maxPayload k.length := by
  simp [takenElems]

/-- A byte is taken until MAX_PAYLOAD bytes have come, and from then on discarded. -/
theorem takeByte_keep (k : List Byte) (b : Byte) :
    takeByte (oversized k.length) true b (takenElems k) = (takenElems (k ++ [b]), oversized (k ++ [b]).length) := by
  have hlen : (k ++ [b]).length = k.length + 1 := List.length_append
  by_cases hn : Config.maxPayload ≤ k.length
  · have hover : oversized (k ++ [b]).length = true := decide_eq_true (by omega)
    have hsame : takenElems (k ++ [b]) = takenElems k := by
      rw [takenElems, List.take_append_of_le_length hn, takenElems]
    have hfull : Config.maxPayload ≤ (takenElems k).length := by rw [length_takenElems]; omega
    rw [hover, hsame, takeByte, if_pos rfl, decide_eq_true hfull, Bool.or_true, if_pos rfl]
  · have hover : oversized (k ++ [b]).length = false := decide_eq_false (by omega)
    have hold : oversized k.length = false := decide_eq_false (by omega)
    have hroom : ¬ Config.maxPayload ≤ (takenElems k).length := by rw [length_takenElems]; omega
    rw [hover, hold, takeByte, if_pos rfl, decide_eq_false hroom, Bool.or_false, if_neg Bool.false_ne_true,
      takenElems_eq (by omega), takenElems_eq (by omega), List.map_append]
    rfl

theorem keptBytes_cons (p : Pins) (ps : List Pins) : keptBytes (p :: ps) = keptBytes [p] ++ keptBytes ps := by
  simp only [keptBytes]
  split <;> rfl

/-- An input beat brings the byte it carries, if it carries one. -/
theorem takeByte_receiving (k : List Byte) {p : Pins} (hv : p.inValid = true) :
    takeByte (oversized k.length) p.inKeep p.inData (takenElems k) =
      (takenElems (k ++ keptBytes [p]), oversized (k ++ keptBytes [p]).length) := by
  cases hk : p.inKeep with
  | true =>
    have hkept : keptBytes [p] = [p.inData] := by simp [keptBytes, hv, hk]
    rw [hkept, takeByte_keep]
  | false =>
    have hkept : keptBytes [p] = [] := by simp [keptBytes, hk]
    rw [hkept, List.append_nil]
    rfl

/-- An edge of the input phase at which in_last is not presented, with a beat or without. -/
theorem clockEdge_receiving (s : State) (k : List Byte) {p : Pins} (hr : p.rst = false)
    (hl : p.inValid = true → p.inLast = false) :
    clockEdge p (s.receiving k) = .next (s.receiving (k ++ keptBytes [p])) := by
  rw [clockEdge_input hr rfl]
  cases hv : p.inValid with
  | true =>
    have htake := takeByte_receiving k hv
    rw [if_pos rfl, inputBeat, hl hv]
    simp only [State.receiving, State.setPort_inp, State.loadChunk_inp, htake]
    rfl
  | false =>
    have hkept : keptBytes [p] = [] := by simp [keptBytes, hv]
    rw [hkept, List.append_nil]
    rfl

/-- The last edge of the input phase. -/
theorem clockEdge_receiving_last (s : State) (k : List Byte) {p : Pins} (hr : p.rst = false)
    (hv : p.inValid = true) (hl : p.inLast = true) :
    clockEdge p (s.receiving k) = chunkComplete (oversized (k ++ keptBytes [p]).length)
      ((s.loadChunk (takenElems (k ++ keptBytes [p]))).setPort (.input (oversized k.length))) := by
  have htake := takeByte_receiving k hv
  rw [clockEdge_input hr rfl, if_pos hv, inputBeat, hl]
  simp only [State.receiving, State.setPort_inp, State.loadChunk_inp, htake]
  rfl

/-- An edge of the input phase shows neither an output beat nor a status pulse. -/
theorem EdgesRun.receiving {p : Pins} {s t : State} {k : List Byte} (h : clockEdge p (s.receiving k) = .next t) :
    EdgesRun [p] (s.receiving k) t [] [] :=
  .silent h (outBeat_eq_none p rfl) rfl

/-- A whole input phase ends where the completed chunk leads, whatever the bytes before the last beat left as the
overflow mark. -/
theorem edgesRun_inputPhase {s t : State} {input : List Pins} (k : List Byte) (h : isInputPhase input = true)
    (ht : ∀ q, chunkComplete (oversized (k ++ keptBytes input).length)
      ((s.loadChunk (takenElems (k ++ keptBytes input))).setPort q) = .next t) :
    EdgesRun input (s.receiving k) t [] [] := by
  induction input generalizing k with
  | nil => cases h
  | cons p ps ih =>
    cases ps with
    | nil =>
      simp only [isInputPhase, Bool.and_eq_true, Bool.not_eq_true'] at h
      obtain ⟨⟨hr, hv⟩, hl⟩ := h
      exact .receiving ((clockEdge_receiving_last s k hr hv hl).trans (ht _))
    | cons q ps =>
      obtain ⟨hr, hl, hrest⟩ := (isInputPhase_cons p q ps).1 h
      rw [keptBytes_cons, ← List.append_assoc] at ht
      exact (EdgesRun.receiving (clockEdge_receiving s k hr hl)).append (ih _ hrest ht)

/-- An ENCODE on the ports from its command beat to the edge with the last input beat. -/
theorem edgesRun_encodeInput {s t : State} {command : Pins} {input : List Pins} (hp : s.port = .idle)
    (hl : s.life = .configured) (hr : command.rst = false) (hv : command.cmdValid = true)
    (hop : command.cmdOp = 0b10) (hin : isInputPhase input = true)
    (ht : ∀ q, chunkComplete (oversized (keptBytes input).length)
      ((s.loadChunk (takenElems (keptBytes input))).setPort q) = .next t) :
    EdgesRun (command :: input) s t [] [] := by
  have hpins := outPins_idle hp
  have hedge : clockEdge command s = .next (s.receiving []) := by
    rw [clockEdge_idle hr hp, if_pos hv, hop, commandBeat_encode _ hl]
  exact (EdgesRun.silent hedge (outBeat_eq_none command (by rw [hpins])) (by rw [hpins])).append
    (edgesRun_inputPhase [] hin ht)

/-- Settles O58: the overflow mark ends the input phase with OversizedPayload, and the next edge is the status
clock. -/
theorem portOversizedChunkIsDiscarded : Obligations.PortOversizedChunkIsDiscarded := by
  intro s command close input hp hl hr hv hop hin hn hclose
  have complete (q : Port) : chunkComplete (oversized (keptBytes input).length)
      ((s.loadChunk (takenElems (keptBytes input))).setPort q) =
        .next ((s.endEncode .oversizedPayload none).setPort (.status .oversizedPayload)) := by
    rw [(oversized_iff _).2 hn]
    rfl
  have whole := execEncode_oversized hl (ch := (keptBytes input).map elemOf) (by rwa [List.length_map])
  obtain ⟨run, output, status⟩ := (edgesRun_encodeInput hp hl hr hv hop hin complete).append
    (edgesRun_status _ .oversizedPayload hclose)
  rw [State.setPort_eq_self (t := s.endEncode _ _) hp] at run
  exact ⟨_, whole, run, output, status⟩

end Sys2Proof.Machine
end

section
/-! SUPPORT. The output phase of an ENCODE on the ports (44_pipeline_ops.md R220). -/

namespace Sys2Proof.Machine

/-- The output beats of the bytes `bs`: in order, with out_last on the last one. -/
def markLast (bs : List Byte) : List (Byte × Bool) := bs.zip (List.replicate (bs.length - 1) false ++ [true])

/-- The pins of the output phase once the bytes `pre` of OUT have been delivered. -/
theorem outPins_sending {t : State} {pre rest : List Byte} {b : Byte} (h : t.out = pre ++ b :: rest) :
    outPins (t.setPort (.output pre.length)) = ⟨false, false, some (b, decide (rest = [])), none⟩ := by
  rw [outPins_output rfl]
  cases rest <;> simp [h]

/-- An edge of the output phase at which the HOST takes the byte presented. -/
theorem EdgesRun.drained {p : Pins} {t u : State} {pre rest : List Byte} {b : Byte} (hr : p.rst = false)
    (hready : p.outReady = true) (hout : t.out = pre ++ b :: rest)
    (hu : outputBeat pre.length (t.setPort (.output pre.length)) = .next u) :
    EdgesRun [p] (t.setPort (.output pre.length)) u [(b, decide (rest = []))] [] := by
  have hedge : clockEdge p (t.setPort (.output pre.length)) = .next u := by
    rw [clockEdge_output hr rfl, if_pos hready, hu]
  have hrun := EdgesRun.single hedge
  rwa [outBeat_of_ready _ hr hready, outPins_sending hout] at hrun

/-- An output phase ends with the beat of the last byte. -/
theorem eq_nil_of_isOutputPhase_zero {ps : List Pins} (h : isOutputPhase ps 0 = true) : ps = [] := by
  cases ps with
  | nil => rfl
  | cons p ps => simp [isOutputPhase] at h

/-- A whole output phase delivers what of OUT has not been delivered yet and ends the ENCODE with OK. -/
theorem edgesRun_outputPhase {t : State} {drain : List Pins} {pre rest : List Byte} {b : Byte}
    (hout : t.out = pre ++ b :: rest) (h : isOutputPhase drain (rest.length + 1) = true) :
    EdgesRun drain (t.setPort (.output pre.length)) ((t.endEncode .ok (some t.out)).setPort (.status .ok))
      (markLast (b :: rest)) [] := by
  induction drain generalizing pre b rest with
  | nil => cases h
  | cons p ps ih =>
    obtain ⟨hr, hrest⟩ := (isOutputPhase_cons p ps _).1 h
    have hlen : t.out.length = pre.length + 1 + rest.length := by rw [hout]; simp; omega
    cases hready : p.outReady with
    | false =>
      rw [hready] at hrest
      have hedge : clockEdge p (t.setPort (.output pre.length)) = .next (t.setPort (.output pre.length)) := by
        rw [clockEdge_output hr rfl, hready]
        rfl
      have wait := EdgesRun.silent hedge (outBeat_of_not_ready _ hready) (by rw [outPins_sending hout])
      exact wait.append (ih hout hrest)
    | true =>
      rw [hready] at hrest
      cases rest with
      | nil =>
        obtain rfl := eq_nil_of_isOutputPhase_zero hrest
        refine EdgesRun.drained hr hready hout ?_
        rw [List.length_nil] at hlen
        rw [outputBeat, State.setPort_out, if_neg (by omega), if_pos (by omega)]
        rfl
      | cons c rest =>
        have hnext : t.out = (pre ++ [b]) ++ c :: rest := by rw [hout, List.append_assoc, List.singleton_append]
        have tail := ih hnext hrest
        rw [List.length_append, List.length_singleton] at tail
        refine (EdgesRun.drained hr hready hout ?_).append tail
        rw [List.length_cons] at hlen
        rw [outputBeat, State.setPort_out, if_pos (by omega)]
        rfl

/-- The state an ENCODE of the bytes `bs`, accepted in `s`, has once its stages have run (44_pipeline_ops.md R203). -/
def State.staged (s : State) (c : Cfg) (v : Word16) (bs : List Byte) : State :=
  { s.loadChunk (takenElems bs) with
    frame := (whitenedFrame c (frameBytes c v bs)).map elemOf
    enc := encodedFrame c (frameBytes c v bs)
    out := transmitUnit c v bs
    seq := some (v + 1)
    seqVal := none }

/-- A completed chunk of at most MAX_PAYLOAD bytes begins the output phase. -/
theorem chunkComplete_legal {s : State} {c : Cfg} {v : Word16} {bs : List Byte} (hc : s.cfg = some c)
    (hv : s.seq = some v) (hn : bs.length ≤ 255) (q : Port) :
    chunkComplete (oversized bs.length) ((s.loadChunk (takenElems bs)).setPort q) =
      .next ((s.staged c v bs).setPort (.output 0)) := by
  have hfits : oversized bs.length = false := Bool.eq_false_iff.2 (mt (oversized_iff _).1 (by omega))
  rw [hfits, chunkComplete, if_neg Bool.false_ne_true,
    encodeStages_bytes (s := (s.loadChunk (takenElems bs)).setPort q) (takenElems_eq hn) hn hc hv rfl]
  rfl

/-- The status clock after the output phase leaves the state the whole ENCODE leaves. -/
theorem staged_endEncode {s : State} (c : Cfg) (v : Word16) (bs : List Byte) (hp : s.port = .idle) :
    ((s.staged c v bs).endEncode .ok (some (transmitUnit c v bs))).setPort .idle =
      ({ s with seq := some (v + 1) } : State).endEncode .ok (some (transmitUnit c v bs)) :=
  State.setPort_eq_self (t := State.endEncode { s with seq := some (v + 1) } _ _) hp

/-- Settles O57: the input phase leaves the transmit unit in OUT, the output phase delivers it and ends the ENCODE with
OK, and the next edge is the status clock. -/
theorem portEncodeDeliversTheTransmitUnit : Obligations.PortEncodeDeliversTheTransmitUnit := by
  intro s c v command close input drain hp hl hc hv hr hvalid hop hin hn hdrain hclose
  obtain ⟨b, rest, hunit⟩ := List.exists_cons_of_length_pos (transmitUnit_length_pos c v (keptBytes input))
  have received := edgesRun_encodeInput hp hl hr hvalid hop hin (chunkComplete_legal hc hv hn)
  have sent := edgesRun_outputPhase (t := s.staged c v (keptBytes input)) (pre := []) hunit (by rwa [hunit] at hdrain)
  obtain ⟨run, output, status⟩ := (received.append sent).append (edgesRun_status _ .ok hclose)
  refine ⟨_, execEncode_bytes hl hc hv hn, run.trans (congrArg _ (staged_endEncode c v _ hp)), ?_, status⟩
  rw [output, hunit, List.nil_append, List.append_nil]
  rfl

end Sys2Proof.Machine
end

section
/-! SUPPORT. The whitener alone is its own inverse (45_properties.md R231, R250). -/

namespace Sys2Proof.Machine

theorem whitenWith_whitenWith (key : Nat → Byte) (xs : List Int) : whitenWith key (whitenWith key xs) = xs := by
  induction xs generalizing key with
  | nil => rfl
  | cons x xs ih => rw [whitenWith, whitenWith, xorElem_xorElem, ih]

theorem xorBytes_xorBytes (key : Nat → Byte) (bs : List Byte) : xorBytes key (xorBytes key bs) = bs := by
  induction bs generalizing key with
  | nil => rfl
  | cons b bs ih => rw [xorBytes, xorBytes, BitVec.xor_assoc, BitVec.xor_self, BitVec.xor_zero, ih]

theorem exec_whiten (s : State) : exec .whiten s = .next { s with frame := whitenSeq s.frame, w := none } :=
  congrArg runStage (whitenStage_eq s)

/-- Settles O28: each element is XORed twice with the same key byte, and W is gone after each WHITEN. -/
theorem whiteningTwiceIsTheIdentity : Obligations.WhiteningTwiceIsTheIdentity := by
  intro s bs _
  refine ⟨_, exec_whiten s, length_whitenWith keyByte s.frame, ?back⟩
  case back =>
    have twice : whitenSeq (whitenSeq s.frame) = s.frame := whitenWith_whitenWith keyByte s.frame
    rw [exec_whiten, twice]

end Sys2Proof.Machine
end

section
/-! SUPPORT. The decoder of the FEC encoder alone (45_properties.md R242, R244, R250). Its syndrome and its parity are
linear and vanish on every codeword, so that a word is judged by its wrong bits, whatever codeword they are wrong in. -/

namespace Sys2Proof.Machine

theorem highNibble_xor (a b : Byte) : highNibble (a ^^^ b) = highNibble a ^^^ highNibble b :=
  BitVec.extractLsb'_xor

/-- The syndrome s0, s1, s2 of a word and, at place 3, its parity q (45_properties.md R242). -/
def syndrome (r : Byte) : Fin 4 → Bool :=
  let d := highNibble r
  ![r.getLsbD 0 ^^ d.getLsbD 0 ^^ d.getLsbD 1 ^^ d.getLsbD 3,
    r.getLsbD 1 ^^ d.getLsbD 0 ^^ d.getLsbD 2 ^^ d.getLsbD 3,
    r.getLsbD 2 ^^ d.getLsbD 1 ^^ d.getLsbD 2 ^^ d.getLsbD 3,
    r.getLsbD 7 ^^ r.getLsbD 6 ^^ r.getLsbD 5 ^^ r.getLsbD 4 ^^ r.getLsbD 3 ^^ r.getLsbD 2 ^^ r.getLsbD 1 ^^
      r.getLsbD 0]

/-- CW_DECODE reads of a word its syndrome and parity and its data nibble alone. -/
theorem cwDecode_eq (r : Byte) :
    cwDecode r =
      if syndrome r 3 then
        .corrected (highNibble r ^^^
          highNibble ((1 : Byte) <<< syndromeBit (syndrome r 2) (syndrome r 1) (syndrome r 0)))
      else if syndrome r 2 || syndrome r 1 || syndrome r 0 then .uncorrectable
      else .clean (highNibble r) := by
  rw [← highNibble_xor]
  rfl

theorem syndrome_xor (a b : Byte) (k : Fin 4) : syndrome (a ^^^ b) k = (syndrome a k ^^ syndrome b k) := by
  have := Std.Commutative.mk Bool.xor_comm
  fin_cases k <;> simp only [syndrome, highNibble_xor, BitVec.getLsbD_xor] <;> dsimp <;> ac_rfl

theorem syndrome_codeword : ∀ (n : Nibble) (k : Fin 4), syndrome (codeword n) k = false := by
  decide

/-- The same judgement of CW_DECODE, with `n` added to the nibble recovered. -/
def CwResult.add (n : Nibble) : CwResult → CwResult
  | .clean d => .clean (n ^^^ d)
  | .corrected d => .corrected (n ^^^ d)
  | .uncorrectable => .uncorrectable

theorem cwDecode_codeword_xor (n : Nibble) (e : Byte) : cwDecode (codeword n ^^^ e) = (cwDecode e).add n := by
  simp only [cwDecode_eq, syndrome_xor, syndrome_codeword, Bool.false_xor, highNibble_xor, highNibble_codeword,
    BitVec.xor_assoc]
  split_ifs <;> rfl

theorem cwDecode_no_bit : cwDecode 0#8 = .clean 0#4 := rfl

theorem cwDecode_one_bit : ∀ i : Fin 8, cwDecode ((1 : Byte) <<< i.val) = .corrected 0#4 := by
  decide

theorem cwDecode_two_bits :
    ∀ i j : Fin 8, i ≠ j → cwDecode ((1 : Byte) <<< i.val ^^^ (1 : Byte) <<< j.val) = .uncorrectable := by
  decide

theorem cwDecode_codeword (n : Nibble) : cwDecode (codeword n) = .clean n := by
  have h := cwDecode_codeword_xor n 0#8
  rwa [BitVec.xor_zero, cwDecode_no_bit, CwResult.add, BitVec.xor_zero] at h

theorem cwDecode_codeword_one_bit (n : Nibble) (i : Fin 8) :
    cwDecode (codeword n ^^^ ((1 : Byte) <<< i.val)) = .corrected n := by
  rw [cwDecode_codeword_xor, cwDecode_one_bit, CwResult.add, BitVec.xor_zero]

/-- Settles O33: added to a codeword, no wrong bit is clean, one is corrected and two are uncorrectable, as they are
added to the codeword 0. -/
theorem decoderCorrectsOneAndDetectsTwo : Obligations.DecoderCorrectsOneAndDetectsTwo := by
  refine ⟨cwDecode_codeword, cwDecode_codeword_one_bit, fun n i j hij => ?twoBits⟩
  case twoBits => rw [BitVec.xor_assoc, cwDecode_codeword_xor, cwDecode_two_bits i j hij, CwResult.add]

/-- `b` is the byte `a` with at most one bit wrong. -/
def AtMostOneWrongBit (a b : Byte) : Prop := b = a ∨ ∃ k : Fin 8, b = a ^^^ ((1 : Byte) <<< k.val)

theorem cwNibble_of_atMostOneWrongBit {n : Nibble} {b : Byte} (h : AtMostOneWrongBit (codeword n) b) :
    cwNibble b = some n := by
  rcases h with rfl | ⟨k, rfl⟩
  · rw [cwNibble, cwDecode_codeword, recoveredNibble]
  · rw [cwNibble, cwDecode_codeword_one_bit, recoveredNibble]

theorem highLow_nibbles (b : Byte) : highNibble b ++ lowNibble b = b := by
  rw [highNibble, lowNibble, BitVec.extractLsb'_append_extractLsb'_eq_extractLsb' (by omega)]
  exact BitVec.extractLsb'_eq_self

theorem fecDecode_of_atMostOneWrongBit {x e : List Byte} (h : List.Forall₂ AtMostOneWrongBit (fecBytes x) e) :
    fecDecode e = some x := by
  induction x generalizing e with
  | nil => cases h; rfl
  | cons b bs ih =>
    rw [fecBytes_cons] at h
    obtain _ | ⟨hhigh, _ | ⟨hlow, hrest⟩⟩ := h
    rw [fecDecode, cwNibble_of_atMostOneWrongBit hhigh, cwNibble_of_atMostOneWrongBit hlow, ih hrest, pairNibbles,
      highLow_nibbles]

theorem fecDecode_fecBytes (x : List Byte) : fecDecode (fecBytes x) = some x :=
  fecDecode_of_atMostOneWrongBit (List.forall₂_same.2 fun _ _ => .inl rfl)

/-- Settles O34: the two codewords of each byte are decoded each by itself. -/
theorem oneWrongBitPerCodewordIsCorrected : Obligations.OneWrongBitPerCodewordIsCorrected :=
  fun _ _ => fecDecode_of_atMostOneWrongBit

end Sys2Proof.Machine
end

section
/-! SUPPORT. The transmit unit of a chunk of bytes: its sections, its length and the reference decoder
(45_properties.md R233, R236, R241, R243). -/

namespace Sys2Proof.Machine

@[simp] theorem length_frameBytes (c : Cfg) (v : Word16) (bs : List Byte) :
    (frameBytes c v bs).length = 4 + bs.length := by
  rw [frameBytes, List.length_append, packHdr_length]
  rfl

theorem drop_frameBytes (c : Cfg) (v : Word16) (bs : List Byte) : (frameBytes c v bs).drop 4 = bs := rfl

theorem length_whitenedFrame (c : Cfg) (f : List Byte) : (whitenedFrame c f).length = f.length := by
  rw [whitenedFrame]
  split
  · exact length_xorBytes keyByte f
  · rfl

theorem length_encodedFrame (c : Cfg) (f : List Byte) :
    (encodedFrame c f).length = (if c.fec then 2 else 1) * f.length := by
  rw [encodedFrame]
  split
  · rw [length_fecBytes, length_whitenedFrame]
  · rw [length_whitenedFrame, Nat.one_mul]

theorem length_transmitUnit (c : Cfg) (v : Word16) (bs : List Byte) :
    (transmitUnit c v bs).length =
      c.preambleBytes.toNat + 2 * c.syncWords.toNat + (if c.fec then 2 else 1) * (4 + bs.length) := by
  rw [transmitUnit, List.length_append, length_linkPrefix, length_encodedFrame, length_frameBytes]

theorem take_transmitUnit (c : Cfg) (v : Word16) (bs : List Byte) :
    (transmitUnit c v bs).take (c.preambleBytes.toNat + 2 * c.syncWords.toNat) = linkPrefix c :=
  List.take_left' (length_linkPrefix c)

theorem drop_transmitUnit (c : Cfg) (v : Word16) (bs : List Byte) :
    (transmitUnit c v bs).drop (c.preambleBytes.toNat + 2 * c.syncWords.toNat) =
      encodedFrame c (frameBytes c v bs) :=
  List.drop_left' (length_linkPrefix c)

theorem encodedFrame_plain {c : Cfg} (hf : c.fec = false) (hw : c.whitening = false) (f : List Byte) :
    encodedFrame c f = f := by
  simp [encodedFrame, whitenedFrame, hf, hw]

/-- What FEC_DECODE recovers, or, without FEC, the encoded frame itself. -/
theorem fecDecode_encodedFrame (c : Cfg) (f : List Byte) :
    (if c.fec then fecDecode (encodedFrame c f) else some (encodedFrame c f)) = some (whitenedFrame c f) := by
  rw [encodedFrame]
  split
  · exact fecDecode_fecBytes _
  · rfl

theorem unwhiten_whitenedFrame (c : Cfg) (f : List Byte) :
    (if c.whitening then xorBytes keyByte (whitenedFrame c f) else whitenedFrame c f) = f := by
  rw [whitenedFrame]
  split
  · exact xorBytes_xorBytes keyByte f
  · rfl

/-- All transforms together are invertible (45_properties.md R241). -/
theorem decodeTu_transmitUnit (c : Cfg) (v : Word16) {bs : List Byte} (h : bs.length ≤ 255) :
    decodeTu c (transmitUnit c v bs) = some (c.flags, v, bs) := by
  simp only [decodeTu, drop_transmitUnit, fecDecode_encodedFrame, unwhiten_whitenedFrame, unframe_frameBytes c v h]

end Sys2Proof.Machine
end

section
/-! SUPPORT. The laws of the transmit units an ENCODE returns (45_properties.md R230, R233, R236, R241, R247). -/

namespace Sys2Proof.Machine

/-- An ENCODE that returns a unit had a chunk of at most 255 bytes, returns their transmit unit and steps the
counter. -/
theorem encode_returned {s t : State} {c : Cfg} {ch : List Int} {tu : List Byte} (hc : s.cfg = some c)
    (h : exec (.encode ch) s = .next t) (hr : t.result = some ⟨.ok, some tu⟩) :
    ∃ v bs, s.seq = some v ∧ ch = bs.map elemOf ∧ bs.length ≤ 255 ∧ tu = transmitUnit c v bs ∧
      t.cfg = some c ∧ t.seq = some (v + 1) := by
  rcases execEncode_next h with ⟨_, rfl⟩ | ⟨_, _, rfl⟩ | ⟨c', v, bs, _, hc', hv, hch, hn, rfl⟩ |
    ⟨_, _, _, _, _, _, _, _, rfl⟩
  · cases hr
  · cases hr
  · cases hr
    cases hc.symm.trans hc'
    exact ⟨v, bs, hv, hch, hn, rfl, hc, rfl⟩
  · cases hr

/-- Settles O38: the unit has its three sections, whose lengths are bounded by the widths of their counts. -/
theorem lengthLaw : Obligations.LengthLaw := by
  intro s t c ch tu hc h hr
  obtain ⟨v, bs, _, rfl, hn, rfl, _, _⟩ := encode_returned hc h hr
  have hp := c.preambleBytes.isLt
  have hs := c.syncWords.isLt
  rw [length_transmitUnit, List.length_map]
  refine ⟨rfl, ?bounds⟩
  split <;> omega

/-- Settles O39: the preamble and sync sections have their index map, and what follows is the encoded frame. -/
theorem sectionLengths : Obligations.SectionLengths := by
  intro s t c v bs tu hc hv h hr
  obtain ⟨v', bs', hv', hch, _, rfl, _, _⟩ := encode_returned hc h hr
  cases hv.symm.trans hv'
  cases (bytesOf_map bs).symm.trans (bytesOf_eq_some.2 hch)
  refine ⟨?preamble, ?sync, drop_transmitUnit c v bs⟩
  case preamble => exact fun _ hi => getElem?_linkPrefix_preamble c _ hi
  case sync =>
    exact fun _ hj => ⟨getElem?_linkPrefix_sync c _ (i := 0) hj (by decide),
      getElem?_linkPrefix_sync c _ (i := 1) hj (by decide)⟩

/-- Settles O40: with neither transform the encoded frame is the frame, and its header has four bytes. -/
theorem plainRoundTrip : Obligations.PlainRoundTrip := by
  intro s t c ch tu hc hf hw _ h hr
  obtain ⟨v, bs, _, rfl, _, rfl, _, _⟩ := encode_returned hc h hr
  rw [← List.drop_drop, drop_transmitUnit, encodedFrame_plain hf hw, drop_frameBytes]

/-- Every returned unit is decoded to what it was made of (45_properties.md R241). -/
theorem decodeTu_of_encode {s t : State} {c : Cfg} {v : Word16} {ch : List Int} {tu : List Byte}
    (hc : s.cfg = some c) (hv : s.seq = some v) (h : exec (.encode ch) s = .next t)
    (hr : t.result = some ⟨.ok, some tu⟩) :
    ∃ bs : List Byte, ch = bs.map elemOf ∧ decodeTu c tu = some (c.flags, v, bs) := by
  obtain ⟨v', bs, hv', hch, hn, rfl, _, _⟩ := encode_returned hc h hr
  cases hv.symm.trans hv'
  exact ⟨bs, hch, decodeTu_transmitUnit c v hn⟩

/-- Settles O41: one unit has one decoding, so two counters and chunks that give it are the same. -/
theorem transmitUnitIsInvertible : Obligations.TransmitUnitIsInvertible := by
  refine ⟨fun _ _ _ _ _ _ => decodeTu_of_encode, ?injective⟩
  intro s t s' t' c v v' ch ch' tu hc hv h hr hc' hv' h' hr'
  obtain ⟨bs, rfl, hd⟩ := decodeTu_of_encode hc hv h hr
  obtain ⟨bs', rfl, hd'⟩ := decodeTu_of_encode hc' hv' h' hr'
  cases hd.symm.trans hd'
  exact ⟨rfl, rfl⟩

/-- Settles O42: the first P + 2S bytes of a unit are its preamble and sync sections, made of the four link registers
alone. -/
theorem prefixDependsOnTheLinkRegistersAlone : Obligations.PrefixDependsOnTheLinkRegistersAlone := by
  intro s t s' t' c c' ch ch' tu tu' hc h hr hc' h' hr' hp h0 h1 hw
  obtain ⟨v, bs, _, _, _, rfl, _, _⟩ := encode_returned hc h hr
  obtain ⟨v', bs', _, _, _, rfl, _, _⟩ := encode_returned hc' h' hr'
  have same : linkPrefix c' = linkPrefix c := by rw [linkPrefix, linkPrefix, hp, h0, h1, hw]
  rw [take_transmitUnit, ← hp, ← hw, take_transmitUnit, same]

end Sys2Proof.Machine
end

section
/-! SUPPORT. Two ENCODEs of one chunk, one after the other (45_properties.md R248). Byte `k` of the encoded frame
depends on one byte of the frame, that at `k` without FEC and that at `k / 2` with it. -/

namespace Sys2Proof.Machine

theorem getElem?_xorBytes (key : Nat → Byte) (bs : List Byte) (i : Nat) :
    (xorBytes key bs)[i]? = bs[i]?.map (· ^^^ key i) := by
  induction bs generalizing key i with
  | nil => rfl
  | cons b bs ih =>
    cases i with
    | zero => rfl
    | succ i => exact ih _ i

theorem getElem?_whitenedFrame_congr (c : Cfg) {f g : List Byte} {k : Nat} (h : f[k]? = g[k]?) :
    (whitenedFrame c f)[k]? = (whitenedFrame c g)[k]? := by
  rw [whitenedFrame, whitenedFrame]
  split
  · rw [getElem?_xorBytes, getElem?_xorBytes, h]
  · exact h

/-- Byte `k` of FEC_ENCODE is the codeword of a nibble of byte `k / 2`. -/
theorem getElem?_fecBytes_eq (f : List Byte) (k : Nat) :
    (fecBytes f)[k]? = f[k / 2]?.map fun b => codeword (if k % 2 = 0 then highNibble b else lowNibble b) := by
  induction f generalizing k with
  | nil => rfl
  | cons b bs ih =>
    match k with
    | 0 => rfl
    | 1 => rfl
    | k + 2 => rw [Nat.add_div_right k (by decide), Nat.add_mod_right]; exact ih k

/-- The place in the frame of the byte that byte `k` of the encoded frame is made of. -/
def framePlace (c : Cfg) (k : Nat) : Nat := if c.fec then k / 2 else k

theorem getElem?_encodedFrame_congr (c : Cfg) {f g : List Byte} {k : Nat}
    (h : f[framePlace c k]? = g[framePlace c k]?) : (encodedFrame c f)[k]? = (encodedFrame c g)[k]? := by
  have whitened := getElem?_whitenedFrame_congr c h
  unfold framePlace at whitened
  unfold encodedFrame
  cases hf : c.fec with
  | false => simpa [hf] using whitened
  | true =>
    simp only [hf, if_true] at whitened ⊢
    rw [getElem?_fecBytes_eq, getElem?_fecBytes_eq, whitened]

/-- Two frames of one chunk are equal outside the sequence field (30_encoding.md R80). -/
theorem getElem?_frameBytes_congr (c : Cfg) (v v' : Word16) (bs : List Byte) {k : Nat} (h1 : k ≠ 1) (h2 : k ≠ 2) :
    (frameBytes c v bs)[k]? = (frameBytes c v' bs)[k]? := by
  match k with
  | 0 => rfl
  | 1 => exact absurd rfl h1
  | 2 => exact absurd rfl h2
  | k + 3 => rfl

/-- Two units of one chunk are equal wherever no byte of the sequence field is encoded. -/
theorem getElem?_transmitUnit_congr (c : Cfg) (v v' : Word16) (bs : List Byte) {i : Nat}
    (h : ∀ k, i = c.preambleBytes.toNat + 2 * c.syncWords.toNat + k → framePlace c k ≠ 1 ∧ framePlace c k ≠ 2) :
    (transmitUnit c v bs)[i]? = (transmitUnit c v' bs)[i]? := by
  by_cases hi : i < c.preambleBytes.toNat + 2 * c.syncWords.toNat
  · have low (x : Word16) : (transmitUnit c x bs)[i]? = (linkPrefix c)[i]? :=
      List.getElem?_append_left (by rwa [length_linkPrefix])
    rw [low, low]
  · obtain ⟨k, rfl⟩ := Nat.exists_eq_add_of_le (Nat.le_of_not_lt hi)
    obtain ⟨h1, h2⟩ := h k rfl
    rw [transmitUnit, transmitUnit, getElem?_linkPrefix_frame, getElem?_linkPrefix_frame]
    exact getElem?_encodedFrame_congr c (getElem?_frameBytes_congr c v v' bs h1 h2)

/-- Settles O43: the second ENCODE finds the configuration of the first and the counter stepped, which the decoder
tells apart, and the two frames differ in the sequence field alone. -/
theorem sameChunkTwiceDiffersInTheSequenceField : Obligations.SameChunkTwiceDiffersInTheSequenceField := by
  intro s t t' c ch tu tu' hc h hr h' hr'
  obtain ⟨v, bs, hv, hch, hn, rfl, hct, hvt⟩ := encode_returned hc h hr
  obtain ⟨v', bs', hv', hch', _, rfl, _, _⟩ := encode_returned hct h' hr'
  cases hvt.symm.trans hv'
  cases (bytesOf_eq_some.2 hch).symm.trans (bytesOf_eq_some.2 hch')
  refine ⟨?differ, ?lengths, ?plain, ?fec⟩
  case differ =>
    intro same
    have decoded := decodeTu_transmitUnit c v hn
    rw [same, decodeTu_transmitUnit c (v + 1) hn] at decoded
    have counter : v + 1 = v := congrArg (fun d => d.2.1) (Option.some.inj decoded)
    bv_omega
  case lengths => rw [length_transmitUnit, length_transmitUnit]
  case plain =>
    intro hf i h1 h2
    refine getElem?_transmitUnit_congr c v (v + 1) bs fun k hk => ?_
    rw [framePlace, hf, if_neg Bool.false_ne_true]
    omega
  case fec =>
    intro hf i hi
    refine getElem?_transmitUnit_congr c v (v + 1) bs fun k hk => ?_
    rw [framePlace, hf, if_pos rfl]
    omega

end Sys2Proof.Machine
end

section
/-! SUPPORT. A host operation that fails (45_properties.md R234, R239). -/

namespace Sys2Proof.Machine

/-- Settles O15: the size check ends the ENCODE before anything is written, and its end empties the transient state. -/
theorem oversizedChunkIsRejected : Obligations.OversizedChunkIsRejected :=
  fun _ _ hl hn => execEncode_oversized hl hn

/-- What operation `i` leaves where it ends with the failure `r` (45_properties.md R239). -/
structure FailureKeeps (i : Instr) (s t : State) (r : Result) : Prop where
  unit : r.unit = none
  life : t.life = s.life
  cfg : t.cfg = s.cfg
  seq : r.status ≠ .invalidEncoderInput → t.seq = s.seq
  burned : r.status = .invalidEncoderInput → (∃ ch, i = .encode ch) ∧ ∃ v, s.seq = some v ∧ t.seq = some (v + 1)

/-- A failure other than InvalidEncoderInput that moves no register. -/
theorem FailureKeeps.of_kept {i : Instr} {s t : State} {st : Status} (hl : t.life = s.life) (hc : t.cfg = s.cfg)
    (hq : t.seq = s.seq) (hst : st ≠ .invalidEncoderInput) : FailureKeeps i s t ⟨st, none⟩ :=
  ⟨rfl, hl, hc, fun _ => hq, fun h => absurd h hst⟩

theorem execConstruct_failed {c : CfgFields} {s t : State} {r : Result} (h : execConstruct c s = .next t)
    (hr : t.result = some r) (hst : r.status ≠ .ok) : FailureKeeps (.construct c) s t r := by
  rcases execConstruct_cases c s with ⟨_, ho⟩ | ⟨_, _, ho⟩ | ⟨_, _, ho⟩ <;> cases ho.symm.trans h <;> cases hr
  · exact .of_kept rfl rfl rfl (by decide)
  · exact .of_kept rfl rfl rfl (by decide)
  · exact absurd rfl hst

theorem execEncode_failed {ch : List Int} {s t : State} {r : Result} (h : execEncode ch s = .next t)
    (hr : t.result = some r) (hst : r.status ≠ .ok) : FailureKeeps (.encode ch) s t r := by
  rcases execEncode_next h with ⟨_, rfl⟩ | ⟨_, _, rfl⟩ | ⟨_, _, _, _, _, _, _, _, rfl⟩ |
    ⟨_, v, _, _, hv, _, _, _, rfl⟩ <;> cases hr
  · exact .of_kept rfl rfl rfl (by decide)
  · exact .of_kept rfl rfl rfl (by decide)
  · exact absurd rfl hst
  · exact ⟨rfl, rfl, rfl, fun h => absurd rfl h, fun _ => ⟨⟨ch, rfl⟩, v, hv, rfl⟩⟩

/-- Settles O44: CONSTRUCT and ENCODE by their ends, RSVD3 because it replies alone; RESET and NOP do not fail. -/
theorem failedOperationChangesNothing : Obligations.FailedOperationChangesNothing := by
  intro i s t r hi h hr hst
  suffices key : FailureKeeps i s t r from ⟨key.unit, key.life, key.cfg, key.seq, key.burned⟩
  cases i <;> simp only [Instr.isHostOp, Bool.false_eq_true] at hi
  case reset => cases h; cases hr; exact absurd rfl hst
  case nop => cases h; cases hr; exact absurd rfl hst
  case construct c => exact execConstruct_failed h hr hst
  case encode ch => exact execEncode_failed h hr hst
  case rsvd3 => cases h; cases hr; exact .of_kept rfl rfl rfl (by decide)

end Sys2Proof.Machine
end

section
/-! SUPPORT. What holds of a state, and of every state a sequence of operations or of clock edges leads to. -/

namespace Sys2Proof.Machine

theorem runOps_cons {i : Instr} {is : List Instr} {s t : State} (h : runOps (i :: is) s = .next t) :
    ∃ u, exec i s = .next u ∧ runOps is u = .next t := by
  unfold runOps at h
  split at h
  · exact ⟨_, ‹_›, h⟩
  all_goals cases h

theorem runEdges_cons_next {p : Pins} {ps : List Pins} {s t : State} (h : runEdges (p :: ps) s = .next t) :
    ∃ u, clockEdge p s = .next u ∧ runEdges ps u = .next t := by
  unfold runEdges at h
  split at h
  · exact ⟨_, ‹_›, h⟩
  all_goals cases h

/-- What each operation of a sequence keeps, the sequence keeps. -/
theorem runOps_keeps {P : State → Prop} {is : List Instr}
    (step : ∀ i ∈ is, ∀ s t, P s → exec i s = .next t → P t) {s t : State} (hs : P s) (h : runOps is s = .next t) :
    P t := by
  induction is generalizing s with
  | nil => cases h; exact hs
  | cons i is ih =>
    obtain ⟨u, hu, ht⟩ := runOps_cons h
    obtain ⟨hi, his⟩ := List.forall_mem_cons.1 step
    exact ih his (hi s u hs hu) ht

/-- What each clock edge of a sequence keeps, the sequence keeps. -/
theorem runEdges_keeps {P : State → Prop} {ps : List Pins}
    (step : ∀ p ∈ ps, ∀ s t, P s → clockEdge p s = .next t → P t) {s t : State} (hs : P s)
    (h : runEdges ps s = .next t) : P t := by
  induction ps generalizing s with
  | nil => cases h; exact hs
  | cons p ps ih =>
    obtain ⟨u, hu, ht⟩ := runEdges_cons_next h
    obtain ⟨hp, hps⟩ := List.forall_mem_cons.1 step
    exact ih hps (hp s u hs hu) ht

end Sys2Proof.Machine
end

section
/-! SUPPORT. Nothing but RESET takes a configuration away or changes it (45_properties.md R240). -/

namespace Sys2Proof.Machine

/-- CONFIGURED, with `c` in the nine registers. -/
def State.ConfiguredWith (s : State) (c : Cfg) : Prop := s.life = .configured ∧ s.cfg = some c

theorem State.ConfiguredWith.of_eq {s t : State} {c : Cfg} (hs : s.ConfiguredWith c) (hl : t.life = s.life)
    (hc : t.cfg = s.cfg) : t.ConfiguredWith c :=
  ⟨hl.trans hs.1, hc.trans hs.2⟩

theorem execConstruct_configuredWith {d : CfgFields} {s t : State} {c : Cfg} (hs : s.ConfiguredWith c)
    (h : execConstruct d s = .next t) : t.ConfiguredWith c := by
  rw [execConstruct_configured d hs.1] at h
  cases h
  exact hs

theorem execEncode_configuredWith {ch : List Int} {s t : State} {c : Cfg} (hs : s.ConfiguredWith c)
    (h : execEncode ch s = .next t) : t.ConfiguredWith c := by
  rcases execEncode_next h with ⟨_, rfl⟩ | ⟨_, _, rfl⟩ | ⟨_, _, _, _, _, _, _, _, rfl⟩ |
    ⟨_, _, _, _, _, _, _, _, rfl⟩
  all_goals exact hs

theorem exec_configuredWith {i : Instr} {s t : State} {c : Cfg} (hi : i ≠ .reset) (hs : s.ConfiguredWith c)
    (h : exec i s = .next t) : t.ConfiguredWith c := by
  cases ho : i.isHostOp with
  | false =>
    have kept := exec_stage_keeps ho h
    exact hs.of_eq kept.life kept.cfg
  | true =>
    cases i <;> simp only [Instr.isHostOp, Bool.false_eq_true] at ho
    case reset => exact absurd rfl hi
    case nop => cases h; exact hs
    case construct d => exact execConstruct_configuredWith hs h
    case encode ch => exact execEncode_configuredWith hs h
    case rsvd3 => cases h; exact hs

theorem showStatus_configuredWith {i : Instr} {s t : State} {c : Cfg} (hi : i ≠ .reset) (hs : s.ConfiguredWith c)
    (h : showStatus (exec i s) = .next t) : t.ConfiguredWith c := by
  obtain ⟨u, q, hu, rfl, _⟩ := showStatus_next h
  have kept : u.ConfiguredWith c := exec_configuredWith hi hs hu
  exact kept

theorem commandBeat_configuredWith {op : BitVec 2} {w : Cfgw} {s t : State} {c : Cfg} (hs : s.ConfiguredWith c)
    (h : commandBeat op w s = .next t) : t.ConfiguredWith c := by
  unfold commandBeat at h
  split_ifs at h
  · exact showStatus_configuredWith (i := .nop) nofun hs h
  · exact showStatus_configuredWith (i := .construct (unpackCfg w)) nofun hs h
  · rw [hs.1] at h; cases h; exact hs
  · exact showStatus_configuredWith (i := .rsvd3) nofun hs h

/-- A clock edge without `rst`. -/
theorem clockEdge_configuredWith {p : Pins} {s t : State} {c : Cfg} (hp : p.rst = false) (hs : s.ConfiguredWith c)
    (h : clockEdge p s = .next t) : t.ConfiguredWith c := by
  by_cases hport : s.port = .idle
  · rw [clockEdge_idle hp hport] at h
    split at h
    · exact commandBeat_configuredWith hs h
    · cases h; exact hs
  cases clockEdge_edgeStep h with
  | rst hr => rw [hp] at hr; cases hr
  | command hidle _ _ _ => exact absurd hidle hport
  | accepted hidle _ => exact absurd hidle hport
  | @encoded full _ _ _ _ hu =>
    have kept := (encodeStages_ends (s := s.take full p) (.inl hu)).1
    exact hs.of_eq kept.life kept.cfg
  | @failed full _ _ _ _ _ hu =>
    have kept := (encodeStages_ends (s := s.take full p) (.inr ⟨_, hu⟩)).1
    exact hs.of_eq kept.life kept.cfg
  | noBeat => exact hs
  | byte _ _ => exact hs
  | discarded _ _ _ => exact hs
  | drained _ _ => exact hs
  | sent _ _ => exact hs
  | statusShown _ => exact hs

/-- Settles O46: a CONSTRUCT is refused while CONFIGURED, and no other operation but RESET and no edge without `rst`
writes LIFE or CFG. -/
theorem configurationIsImmutable : Obligations.ConfigurationIsImmutable := by
  refine ⟨?operations, ?edges⟩
  case operations =>
    intro is s t c hl hc hi h
    exact runOps_keeps (P := (·.ConfiguredWith c)) (fun i hm _ _ => exec_configuredWith (hi i hm)) ⟨hl, hc⟩ h
  case edges =>
    intro ps s t c hl hc hp h
    exact runEdges_keeps (P := (·.ConfiguredWith c)) (fun p hm _ _ => clockEdge_configuredWith (hp p hm)) ⟨hl, hc⟩ h

end Sys2Proof.Machine
end

section
/-! SUPPORT. The counter along a sequence of host operations (45_properties.md R232, R245). -/

namespace Sys2Proof.Machine

theorem passesSizeCheck_encode (ch : List Int) : passesSizeCheck (.encode ch) = true ↔ ch.length ≤ 255 :=
  decide_eq_true_iff

/-- CONFIGURED, with the counter at `v`. -/
def State.CountsAt (s : State) (v : Word16) : Prop := s.life = .configured ∧ s.seq = some v

/-- What an operation adds to the counter. -/
def countOf (i : Instr) : Word16 := if passesSizeCheck i then 1 else 0

theorem State.CountsAt.kept {s : State} {v : Word16} (hs : s.CountsAt v) {i : Instr}
    (hi : passesSizeCheck i = false) : s.CountsAt (v + countOf i) := by
  have unchanged : v + countOf i = v := by
    rw [countOf, hi]
    exact BitVec.add_zero v
  rwa [unchanged]

theorem execConstruct_countsAt {c : CfgFields} {s t : State} {v : Word16} (hs : s.CountsAt v)
    (h : execConstruct c s = .next t) : t.CountsAt v := by
  rw [execConstruct_configured c hs.1] at h
  cases h
  exact hs

/-- An ENCODE steps the counter exactly if it assembles its frame, whatever becomes of the frame. -/
theorem execEncode_countsAt {ch : List Int} {s t : State} {v : Word16} (hs : s.CountsAt v)
    (h : execEncode ch s = .next t) : t.CountsAt (v + countOf (.encode ch)) := by
  obtain ⟨hl, hv⟩ := hs
  have stepped (hn : ch.length ≤ 255) (x : Word16) (hx : s.seq = some x) : v + countOf (.encode ch) = x + 1 := by
    rw [countOf, (passesSizeCheck_encode ch).2 hn, if_pos rfl, Option.some.inj (hv.symm.trans hx)]
  rcases execEncode_next h with ⟨hl', _⟩ | ⟨_, hn, rfl⟩ | ⟨_, x, bs, _, _, hx, hch, hn, rfl⟩ |
    ⟨_, x, _, _, hx, hn, _, _, rfl⟩
  · cases hl.symm.trans hl'
  · have fails : passesSizeCheck (.encode ch) = false :=
      Bool.eq_false_iff.2 (mt (passesSizeCheck_encode ch).1 (by omega))
    exact State.CountsAt.kept ⟨hl, hv⟩ fails
  · rw [stepped (by rwa [hch, List.length_map]) x hx]
    exact ⟨hl, rfl⟩
  · rw [stepped hn x hx]
    exact ⟨hl, rfl⟩

theorem exec_countsAt {i : Instr} {s t : State} {v : Word16} (hi : i.isHostOp = true) (hr : i ≠ .reset)
    (hs : s.CountsAt v) (h : exec i s = .next t) : t.CountsAt (v + countOf i) := by
  cases i <;> simp only [Instr.isHostOp, Bool.false_eq_true] at hi
  case reset => exact absurd rfl hr
  case nop => cases h; exact State.CountsAt.kept hs rfl
  case construct c => exact (execConstruct_countsAt hs h).kept rfl
  case encode ch => exact execEncode_countsAt hs h
  case rsvd3 => cases h; exact State.CountsAt.kept hs rfl

/-- Settles O60: of the host operations but RESET only an ENCODE that assembles its frame steps the counter. -/
theorem eachHostOperationCountsItself : Obligations.EachHostOperationCountsItself :=
  fun _ _ _ _ hl hv hi hr h => exec_countsAt hi hr ⟨hl, hv⟩ h

/-- A sequence of host operations without RESET. -/
def HostOps (is : List Instr) : Prop := ∀ i ∈ is, i.isHostOp = true ∧ i ≠ .reset

theorem runOps_countsAt {is : List Instr} {s t : State} {v : Word16} (hi : HostOps is) (hs : s.CountsAt v)
    (h : runOps is s = .next t) : t.CountsAt (v + BitVec.ofNat 16 (is.countP passesSizeCheck)) := by
  induction is generalizing s v with
  | nil => cases h; rwa [List.countP_nil, BitVec.add_zero]
  | cons i is ih =>
    obtain ⟨u, hu, ht⟩ := runOps_cons h
    obtain ⟨⟨hhost, hreset⟩, his⟩ := List.forall_mem_cons.1 hi
    have counted := ih his (exec_countsAt hhost hreset hs hu) ht
    have head : countOf i = BitVec.ofNat 16 (if passesSizeCheck i then 1 else 0) := by
      rw [countOf]
      split <;> rfl
    rwa [BitVec.add_assoc, head, ← BitVec.ofNat_add, Nat.add_comm, ← List.countP_cons] at counted

/-- The seed as the statements write it (10_state.md R30). -/
theorem seqSeed_cfgOf {c : CfgFields} (h : c.Fits) :
    seqSeed (cfgOf c).seqByte0 (cfgOf c).seqByte1 = BitVec.ofInt 16 (256 * c.seqByte1 + c.seqByte0) := by
  have h0 : ((cfgOf c).seqByte0.toNat : Int) = c.seqByte0 := cfgReg_cfgOf h 7
  have h1 : ((cfgOf c).seqByte1.toNat : Int) = c.seqByte1 := cfgReg_cfgOf h 8
  have number : ((seqSeed (cfgOf c).seqByte0 (cfgOf c).seqByte1).toNat : Int) = 256 * c.seqByte1 + c.seqByte0 := by
    rw [seqSeed_toNat, ← h0, ← h1]
    push_cast
    rfl
  rw [← number, BitVec.ofInt_natCast, BitVec.ofNat_toNat, BitVec.setWidth_eq]

/-- A CONSTRUCT that returns OK writes the registers and the seed (44_pipeline_ops.md R198). -/
theorem construct_returned {cf : CfgFields} {s s' : State} (h : exec (.construct cf) s = .next s')
    (hr : s'.result = some ⟨.ok, none⟩) :
    s'.ConfiguredWith (cfgOf cf) ∧ s'.CountsAt (BitVec.ofInt 16 (256 * cf.seqByte1 + cf.seqByte0)) := by
  rcases execConstruct_cases cf s with ⟨_, ho⟩ | ⟨_, _, ho⟩ | ⟨_, hv, ho⟩ <;> cases ho.symm.trans h
  · cases hr
  · cases hr
  · rw [← seqSeed_cfgOf ((validCfg_iff_fits cf).1 hv)]
    exact ⟨⟨rfl, rfl⟩, rfl, rfl⟩

/-- The state after a successful CONSTRUCT and host operations without RESET among which `n` assembled a frame. -/
theorem runOps_after_construct {cf : CfgFields} {is : List Instr} {s s' t : State}
    (h : exec (.construct cf) s = .next s') (hr : s'.result = some ⟨.ok, none⟩) (hi : HostOps is)
    (ht : runOps is s' = .next t) :
    t.ConfiguredWith (cfgOf cf) ∧
      t.CountsAt (BitVec.ofInt 16 (256 * cf.seqByte1 + cf.seqByte0 + (is.countP passesSizeCheck : Nat))) := by
  obtain ⟨configured, seeded⟩ := construct_returned h hr
  refine ⟨runOps_keeps (P := (·.ConfiguredWith _)) (fun i hm _ _ => exec_configuredWith (hi i hm).2) configured ht, ?_⟩
  rw [BitVec.ofInt_add, BitVec.ofInt_natCast]
  exact runOps_countsAt hi seeded ht

/-- Settles O47: each operation adds its own count to the seed, and 65536 counts add up to 0. -/
theorem countingLaw : Obligations.CountingLaw := by
  intro cf is s s' t h hr hi ht
  refine ⟨(runOps_after_construct h hr hi ht).2.2, fun hm => ?wraps⟩
  case wraps =>
    obtain ⟨_, hl, hv⟩ := construct_returned h hr
    have counted := (runOps_countsAt hi ⟨hl, hv⟩ ht).2
    rw [hm] at counted
    rw [counted, hv]
    congr 1
    exact BitVec.add_zero _

/-- Settles O48: the ENCODE counts from the sum so far, which is the sequence value its unit carries. -/
theorem sequenceProgression : Obligations.SequenceProgression := by
  intro cf is ch s s' t u h hr hi ht hu hp
  obtain ⟨configured, counter⟩ := runOps_after_construct h hr hi ht
  refine ⟨?stepped, fun tu hres => ?carried⟩
  case stepped =>
    have stepped := (execEncode_countsAt counter hu).2
    rw [countOf, hp, if_pos rfl] at stepped
    rw [stepped, BitVec.ofInt_add _ 1]
    rfl
  case carried =>
    obtain ⟨bs, _, decoded⟩ := decodeTu_of_encode configured.2 counter.2 hu hres
    exact ⟨_, bs, decoded⟩

end Sys2Proof.Machine
end

section
/-! SUPPORT. The result of ENCODE is a function of LIFE, CFG, SEQ and the chunk (45_properties.md R237). -/

namespace Sys2Proof.Machine

/-- The persistent state of two instances is the same (10_state.md R20). -/
structure SameRegisters (s s' : State) : Prop where
  life : s'.life = s.life
  cfg : s'.cfg = s.cfg
  seq : s'.seq = s.seq

/-- The same outcome as far as the HOST and the persistent state go: the same result and registers, or the same
fault. -/
inductive SameOutcome : (r r' : Host.Outcome State Fault Refusal) → Prop
  | next {t t' : State} : t'.result = t.result → SameRegisters t t' → SameOutcome (.next t) (.next t')
  | fault (f : Fault) : SameOutcome (.fault f) (.fault f)

/-- Every end of an ENCODE is chosen by LIFE, CFG, SEQ and the chunk, and writes a result made of them. -/
theorem execEncode_sameOutcome {s s' : State} (ch : List Int) (h : SameRegisters s s') :
    SameOutcome (execEncode ch s) (execEncode ch s') := by
  obtain ⟨hl, hc, hv⟩ := h
  rcases s.life_cases with life | life
  · rw [execEncode_unconfigured ch life, execEncode_unconfigured ch (hl.trans life)]
    exact .next rfl ⟨hl, hc, hv⟩
  by_cases hn : 255 < ch.length
  · rw [execEncode_oversized life hn, execEncode_oversized (hl.trans life) hn]
    exact .next rfl ⟨hl, hc, hv⟩
  have hn : ch.length ≤ 255 := by omega
  rcases Option.eq_none_or_eq_some s.cfg with cfg | ⟨c, cfg⟩
  · rw [execEncode_noValue life hn (.inl cfg), execEncode_noValue (hl.trans life) hn (.inl (hc.trans cfg))]
    exact .fault _
  rcases Option.eq_none_or_eq_some s.seq with seq | ⟨v, seq⟩
  · rw [execEncode_noValue life hn (.inr seq), execEncode_noValue (hl.trans life) hn (.inr (hv.trans seq))]
    exact .fault _
  cases hb : bytesOf ch with
  | some bs =>
    obtain rfl := bytesOf_eq_some.1 hb
    have hbl : bs.length ≤ 255 := by simpa using hn
    rw [execEncode_bytes life cfg seq hbl, execEncode_bytes (hl.trans life) (hc.trans cfg) (hv.trans seq) hbl]
    exact .next rfl ⟨hl, hc, rfl⟩
  | none =>
    have hx := bytesOf_eq_none.1 hb
    cases hf : c.fec with
    | false =>
      rw [execEncode_nonByte_plain life cfg seq hn hx hf,
        execEncode_nonByte_plain (hl.trans life) (hc.trans cfg) (hv.trans seq) hn hx hf]
      exact .fault _
    | true =>
      rw [execEncode_nonByte_fec life cfg seq hn hx hf,
        execEncode_nonByte_fec (hl.trans life) (hc.trans cfg) (hv.trans seq) hn hx hf]
      exact .next rfl ⟨hl, hc, rfl⟩

theorem exec_encode_sameOutcome {s s' : State} (ch : List Int) (h : SameRegisters s s') :
    SameOutcome (exec (.encode ch) s) (exec (.encode ch) s') :=
  execEncode_sameOutcome ch h

theorem SameOutcome.of_next {t : State} {r' : Host.Outcome State Fault Refusal} (h : SameOutcome (.next t) r') :
    ∃ t', r' = .next t' ∧ t'.result = t.result ∧ SameRegisters t t' := by
  cases h with
  | next hres hregs => exact ⟨_, rfl, hres, hregs⟩

theorem SameOutcome.of_fault {f : Fault} {r' : Host.Outcome State Fault Refusal} (h : SameOutcome (.fault f) r') :
    r' = .fault f := by
  cases h
  rfl

theorem resultsOf_cons_next {i : Instr} {s t : State} (is : List Instr) (h : exec i s = .next t) :
    resultsOf (i :: is) s = t.result :: resultsOf is t := by
  simp only [resultsOf, h]

theorem resultsOf_cons_fault {i : Instr} {s : State} {f : Fault} (is : List Instr) (h : exec i s = .fault f) :
    resultsOf (i :: is) s = [] := by
  simp only [resultsOf, h]

theorem resultsOf_encodes_congr (chs : List (List Int)) {s s' : State} (h : SameRegisters s s') :
    resultsOf (chs.map Instr.encode) s = resultsOf (chs.map Instr.encode) s' := by
  induction chs generalizing s s' with
  | nil => rfl
  | cons ch chs ih =>
    have same := exec_encode_sameOutcome ch h
    generalize hr : exec (.encode ch) s = r, hr' : exec (.encode ch) s' = r' at same
    cases same with
    | next hres hregs =>
      rw [List.map_cons, resultsOf_cons_next _ hr, resultsOf_cons_next _ hr', hres, ih hregs]
    | fault f => rw [List.map_cons, resultsOf_cons_fault _ hr, resultsOf_cons_fault _ hr']

/-- While UNCONFIGURED every ENCODE is refused, whatever the registers hold. -/
theorem resultsOf_encodes_unconfigured (chs : List (List Int)) {s : State} (h : s.life = .unconfigured) :
    resultsOf (chs.map Instr.encode) s = chs.map fun _ => some ⟨.protocolError, none⟩ := by
  induction chs generalizing s with
  | nil => rfl
  | cons ch chs ih =>
    have refused : exec (.encode ch) s = .next (s.reply .protocolError none) := execEncode_unconfigured ch h
    rw [List.map_cons, resultsOf_cons_next _ refused, ih (s := s.reply _ _) h]
    rfl

/-- Settles O49: equal registers give equal outcomes, and a CONSTRUCT either makes the registers of two instances
equal or leaves both without a configuration. -/
theorem encodeDependsOnConfigurationAndCounterAlone : Obligations.EncodeDependsOnConfigurationAndCounterAlone := by
  refine ⟨fun s s' ch hl hc hv => ?oneEncode, fun s s' cf chs hl hl' => ?twoInstances⟩
  case oneEncode =>
    have same := exec_encode_sameOutcome ch ⟨hl, hc, hv⟩
    refine ⟨fun t ht => ?next, fun f hf => ?fault⟩
    case next =>
      rw [ht] at same
      obtain ⟨t', ht', hres, hregs⟩ := same.of_next
      exact ⟨t', ht', hres, hregs.life, hregs.cfg, hregs.seq⟩
    case fault =>
      rw [hf] at same
      exact same.of_fault
  case twoInstances =>
    cases hv : validCfg cf with
    | false =>
      have refused (x : State) (hx : x.life = .unconfigured) :
          resultsOf (.construct cf :: chs.map Instr.encode) x =
            some ⟨.invalidConfiguration, none⟩ :: chs.map fun _ => some ⟨.protocolError, none⟩ := by
        rw [resultsOf_cons_next (i := .construct cf) _ (execConstruct_invalid hx hv),
          resultsOf_encodes_unconfigured chs (s := x.reply _ _) hx]
        rfl
      rw [refused s hl, refused s' hl']
    | true =>
      have seeded (x : State) (hx : x.life = .unconfigured) : exec (.construct cf) x = _ := execConstruct_valid hx hv
      rw [resultsOf_cons_next _ (seeded s hl), resultsOf_cons_next _ (seeded s' hl')]
      exact congrArg _ (resultsOf_encodes_congr chs ⟨rfl, rfl, rfl⟩)

end Sys2Proof.Machine
end

section
/-! SUPPORT. Instances side by side share nothing (45_properties.md R246, 10_state.md R37). -/

namespace Sys2Proof.Machine

/-- `f` done by the state at position `k`, in its place among the others. -/
def onInstance (f : State → Host.Outcome State Fault Refusal) (k : Nat) (bank : List State) :
    Host.Outcome (List State) Fault Refusal :=
  match bank[k]? with
  | none => .next bank
  | some s =>
    match f s with
    | .next t => .next (bank.set k t)
    | .fault r => .fault r
    | .refused x => .refused x

theorem execInstance_eq (k : Nat) (i : Instr) : execInstance k i = onInstance (exec i) k := rfl

theorem stepInstance_eq (k : Nat) : stepInstance k = onInstance step k := rfl

section

variable {f : State → Host.Outcome State Fault Refusal} {k : Nat} {bank bank' : List State}

theorem onInstance_none (h : bank[k]? = none) : onInstance f k bank = .next bank := by
  simp only [onInstance, h]

theorem onInstance_some {s t : State} (h : bank[k]? = some s) (ht : f s = .next t) :
    onInstance f k bank = .next (bank.set k t) := by
  simp only [onInstance, h, ht]

/-- The position is empty, or the state there goes on and no other is changed. -/
theorem onInstance_next (h : onInstance f k bank = .next bank') :
    (bank[k]? = none ∧ bank' = bank) ∨ ∃ s t, bank[k]? = some s ∧ f s = .next t ∧ bank' = bank.set k t := by
  cases hs : bank[k]? with
  | none =>
    rw [onInstance_none hs] at h
    cases h
    exact .inl ⟨rfl, rfl⟩
  | some s =>
    simp only [onInstance, hs] at h
    split at h
    case h_1 t ht => cases h; exact .inr ⟨s, t, rfl, ht, rfl⟩
    all_goals cases h

theorem onInstance_keeps_others {j : Nat} (hj : j ≠ k) (h : onInstance f k bank = .next bank') :
    bank'[j]? = bank[j]? := by
  rcases onInstance_next h with ⟨_, rfl⟩ | ⟨s, t, _, _, rfl⟩
  · rfl
  · exact List.getElem?_set_ne hj.symm

theorem onInstance_congr {other : List State} (ho : other[k]? = bank[k]?) (h : onInstance f k bank = .next bank') :
    ∃ other', onInstance f k other = .next other' ∧ other'[k]? = bank'[k]? := by
  rcases onInstance_next h with ⟨hs, rfl⟩ | ⟨s, t, hs, ht, rfl⟩
  · exact ⟨other, onInstance_none (ho.trans hs), ho⟩
  · refine ⟨_, onInstance_some (ho.trans hs) ht, ?_⟩
    rw [List.getElem?_set_self', List.getElem?_set_self', ho]

end

/-- Settles O50: an operation and a step both replace the state at their own position alone, and read no other. -/
theorem instancesAreIndependent : Obligations.InstancesAreIndependent := by
  simp only [Obligations.InstancesAreIndependent, execInstance_eq, stepInstance_eq]
  exact ⟨fun _ _ _ _ _ => onInstance_keeps_others, fun _ _ _ _ => onInstance_keeps_others,
    fun _ _ _ _ _ => onInstance_congr, fun _ _ _ _ => onInstance_congr⟩

end Sys2Proof.Machine
end

section
/-! SUPPORT. The errors an operation reports, in the order of their tests (60_exceptions.md R263, R268). -/

namespace Sys2Proof.Machine

/-- Settles O17: the ENCODE ends in FEC_ENCODE, after ASSEMBLE has stepped the counter. -/
theorem nonByteChunkWithFecBurnsASequenceNumber : Obligations.NonByteChunkWithFecBurnsASequenceNumber :=
  fun _ _ _ _ hl hc hv hn hf hx => execEncode_nonByte_fec hl hc hv hn (exists_not_isByte hx) hf

/-- Settles O18: the ENCODE stops in the bypass of the FEC encoder. -/
theorem nonByteChunkWithoutFecStops : Obligations.NonByteChunkWithoutFecStops :=
  fun _ _ _ _ hl hc hv hn hf hx => execEncode_nonByte_plain hl hc hv hn (exists_not_isByte hx) hf

theorem decodeCmd_of_rst {w : BitVec 3} (h : w.getLsbD 2 = true) (c : CfgFields) (ch : List Int) :
    decodeCmd w c ch = .reset := by
  have rst_bit : ∀ w : BitVec 3, w.getLsbD 2 = true → w &&& 0b100 = 0b100 := by decide
  exact if_pos (rst_bit w h)

theorem decode_cmd_of_rst {w : BitVec 3} (h : w.getLsbD 2 = true) (o : CfgOperand) (ch : List Int) :
    decode ⟨.cmd w, o, ch⟩ = .ok .reset :=
  congrArg Except.ok (decodeCmd_of_rst h _ _)

theorem clockEdge_of_rst {p : Pins} (h : p.rst = true) (s : State) : clockEdge p s = exec .reset s := if_pos h

/-- CONSTRUCT tests the lifecycle before the configuration. -/
theorem execConstruct_status (c : CfgFields) (s : State) : ∃ t, execConstruct c s = .next t ∧
    t.result = some ⟨if s.life = .configured then .protocolError
      else if validCfg c = false then .invalidConfiguration else .ok, none⟩ := by
  rcases execConstruct_cases c s with ⟨hl, h⟩ | ⟨hl, hv, h⟩ | ⟨hl, hv, h⟩
  · exact ⟨_, h, by simp [hl]⟩
  · exact ⟨_, h, by simp [hl, hv]⟩
  · exact ⟨_, h, by simp [hl, hv]⟩

/-- ENCODE tests the lifecycle, then the size, both before it writes the counter, then the elements. -/
theorem execEncode_status {s : State} {ch : List Int} (hs : s.Coherent)
    (hb : ∀ c, s.cfg = some c → c.fec = false → ch.length ≤ 255 → ∀ x ∈ ch, IsByte x) :
    ∃ t r, execEncode ch s = .next t ∧ t.result = some r ∧
      r.status = (if s.life = .unconfigured then .protocolError
        else if 255 < ch.length then .oversizedPayload
        else if ∃ x ∈ ch, ¬ IsByte x then .invalidEncoderInput else .ok) ∧
      (255 < ch.length → t.seq = s.seq) := by
  rcases s.life_cases with hl | hl
  · exact ⟨_, _, execEncode_unconfigured ch hl, rfl, (if_pos hl).symm, fun _ => rfl⟩
  rw [if_neg (by simp [hl])]
  by_cases hn : 255 < ch.length
  · exact ⟨_, _, execEncode_oversized hl hn, rfl, (if_pos hn).symm, fun _ => rfl⟩
  rw [if_neg hn]
  have hle : ch.length ≤ 255 := not_lt.1 hn
  obtain ⟨⟨c, hc⟩, v, hv⟩ := hs.values hl
  by_cases hx : ∃ x ∈ ch, ¬ IsByte x
  · have hf : c.fec = true := by
      obtain ⟨x, hm, hx⟩ := hx
      exact Bool.eq_true_of_not_eq_false fun hf => hx (hb c hc hf hle x hm)
    exact ⟨_, _, execEncode_nonByte_fec hl hc hv hle hx hf, rfl, (if_pos hx).symm, fun h => absurd h hn⟩
  · obtain ⟨bs, rfl⟩ := exists_bytes fun x hm => not_not.1 fun h => hx ⟨x, hm, h⟩
    exact ⟨_, _, execEncode_bytes hl hc hv (by simpa using hle), rfl, (if_neg hx).symm, fun h => absurd h hn⟩

/-- Settles O19: RESET wins at the word and at the edge, CONSTRUCT and ENCODE report the first test that holds, and
RSVD3 tests nothing. -/
theorem errorsAreTestedInTheirOrder : Obligations.ErrorsAreTestedInTheirOrder :=
  ⟨fun _ o ch h => decode_cmd_of_rst h o ch, fun _ s h => clockEdge_of_rst h s, execConstruct_status,
    fun _ _ => execEncode_status, fun _ => ⟨_, rfl, rfl⟩⟩

end Sys2Proof.Machine
end

section
/-! SUPPORT. A step that executes no operation (60_exceptions.md R276, R277, 44_pipeline_ops.md R217). -/

namespace Sys2Proof.Machine

theorem nextEdge_of_nil {s : State} (h : s.edges = []) : nextEdge s = .next s := by
  simp only [nextEdge, h]

theorem nextEdge_of_cons {s : State} {p : Pins} {ps : List Pins} (h : s.edges = p :: ps) :
    nextEdge s = clockEdge p { s with edges := ps } := by
  simp only [nextEdge, h]

/-- While an operation is in progress on the ports, or with nothing presented, the step is the next clock edge. -/
theorem step_eq_nextEdge {s : State} (h : s.port ≠ .idle ∨ s.placed = none ∧ s.requests = []) :
    step s = nextEdge s := by
  cases hp : s.port with
  | idle =>
    obtain ⟨hn, hr⟩ := h.resolve_left (not_not.2 hp)
    simp only [step, advance, nextRequest, hp, hn, hr]
  | input full => simp only [step, advance, hp]
  | output i => simp only [step, advance, hp]
  | status c => simp only [step, advance, hp]

theorem decodeStage_of_unused {w : BitVec 4}
    (h : w ∉ [0b0010#4, 0b0100#4, 0b0110#4, 0b1000#4, 0b1010#4, 0b1011#4]) :
    decodeStage w = .error (.unusedStage w) := by
  simp only [List.mem_cons, List.not_mem_nil, or_false, not_or] at h
  simp [decodeStage, h]

theorem decode_stage {r : Request} {w : BitVec 4} (h : r.word = .stage w) : decode r = decodeStage w := by
  simp only [decode, h]

theorem runRequest_error {r : Request} {w : BitVec 4} (s : State) (h : decode r = .error (.unusedStage w)) :
    runRequest r s = .fault (.unusedStage w) := by
  simp only [runRequest, h]

/-- Settles O5: a step that executes no operation is the next clock edge, if there is one; a placed word that is not
decoded is the fault of its identifier. -/
theorem stepWithoutADecodedOperation : Obligations.StepWithoutADecodedOperation := by
  refine ⟨?nothing, ?busy, ?edge, ?unused⟩
  case nothing =>
    intro s hn hr he
    exact (step_eq_nextEdge (.inr ⟨hn, hr⟩)).trans (nextEdge_of_nil he)
  case busy =>
    intro s hp he
    exact (step_eq_nextEdge (.inl hp)).trans (nextEdge_of_nil he)
  case edge =>
    intro s p ps h he
    exact (step_eq_nextEdge h).trans (nextEdge_of_cons he)
  case unused =>
    intro s r w hp hr hw hu
    exact (step_of_placed hp hr).trans (runRequest_error _ ((decode_stage hw).trans (decodeStage_of_unused hu)))

end Sys2Proof.Machine
end

section
/-! SUPPORT. The state a RESET leaves, by command or by `rst` at a clock edge (70_reset_and_hazards.md R291, R292). -/

namespace Sys2Proof.Machine

theorem State.Coherent.noValues {s : State} (h : s.Coherent) (hl : s.life = .unconfigured) :
    s.cfg = none ∧ s.seq = none := by
  unfold State.Coherent at h
  rwa [hl] at h

/-- An UNCONFIGURED instance between operations holds nothing a RESET would take away. -/
theorem State.restart_eq_self {s : State} (hs : s.Coherent) (hr : s.AtRest) (hl : s.life = .unconfigured) :
    s.restart = s := by
  obtain ⟨hc, hq⟩ := hs.noValues hl
  obtain ⟨hw, hin, hframe, henc, hout, hval, hport⟩ := hr
  cases s
  simp_all only [State.restart, State.clearTransients]

theorem exec_reset (s : State) : exec .reset s = .next (s.restart.reply .ok none) := rfl

/-- Settles O7: the `rst` bit decides at the word and at the edge, and RESET writes every field the HOST does not
present, which at rest and UNCONFIGURED hold these values already. -/
theorem resetEndsTheConfiguration : Obligations.ResetEndsTheConfiguration := by
  refine ⟨fun _ o ch h => decode_cmd_of_rst h o ch, exec_reset, fun _ s h => clockEdge_of_rst h s, ?rest⟩
  case rest =>
    intro s hs hr hl
    rw [exec_reset, State.restart_eq_self hs hr hl]
    rfl

theorem outBeat_of_rst {p : Pins} (h : p.rst = true) (s : State) : outBeat p s = none := if_pos h

/-- Settles O54: the edge is a RESET, which leaves the ports idle, so that neither a status nor an output is shown. -/
theorem rstAbandonsTheOperation : Obligations.RstAbandonsTheOperation := by
  intro p s h
  have idle_pins : outPins (s.restart.reply .ok none) = ⟨true, false, none, none⟩ := outPins_idle rfl
  exact ⟨outBeat_of_rst h s, _, clockEdge_of_rst h s, exec_reset s, rfl, by rw [idle_pins], by rw [idle_pins]⟩

end Sys2Proof.Machine
end
